-- ==== Sys2Proof/Word.lean ====
section
/-! DEFINITION. The word types of the block's ports and tables (spec 00_scope.md R6, R8). -/

namespace Sys2Proof

/-- One output byte, one palette index (R6: `INDEX_BITS` = 8). -/
abbrev Byte := BitVec 8

/-- A command word of the command port (R6: `CMD_BITS` = 32; R70). -/
abbrev CmdWord := BitVec 32

/-- A code of the packed stream (R6: `CODE_BITS_MAX` = 12; R79). -/
abbrev Code := BitVec 12

/-- The STATUS word (R6: `STATUS_BITS` = 32; R33). -/
abbrev StatusWord := BitVec 32

/-- One word of the output port (R83): bits 7:0 the byte, bit 8 the `last` flag. -/
abbrev PortWord := BitVec 9

end Sys2Proof
end

