-- ==== Sys2Proof/Syntax.lean ====
section
/-! DEFINITION. The three commands (spec 30_encoding.md R70, R71), why a word may be illegal (R75), and the lines of the
assembler (R76, R77). -/

namespace Sys2Proof

/-- The commands, one constructor per row of the opcode table. -/
inductive Instr where
  /-- START cc (R72, R142): the color count as given, 0..65535. -/
  | start (cc : BitVec 16)
  /-- PUSH i (R73, R144): one palette index. -/
  | push (i : Byte)
  /-- END (R74, R155). -/
  | endStream
  deriving DecidableEq, Repr

/-- Why a command word is illegal (R75). -/
inductive IllegalWord where
  /-- The opcode is not 0x01, 0x02 or 0x03. -/
  | opcode
  /-- A bit the table of R70 marks reserved is 1. -/
  | reservedBit
  deriving DecidableEq, Repr

/-- What the decoder says of a word: a command, or why it is illegal (R75: all 2^32 words are one or the other). -/
inductive Decoded where
  | instr (i : Instr)
  | illegal (why : IllegalWord)
  deriving DecidableEq, Repr

/-- A line of the assembler (R76, R77), its operands as numbers, before the range check. -/
inductive AsmLine where
  | start (cc : Nat)
  | push (i : Nat)
  | endStream
  /-- PUSHS i0, ..., in (R77). -/
  | pushs (is : List Nat)
  /-- ENCODE cc, i0, ..., in, or ENCODE cc with no index (R77). -/
  | encode (cc : Nat) (is : List Nat)
  deriving DecidableEq, Repr

end Sys2Proof
end

