-- ==== Sys2Proof/WellFormed.lean ====
section
/-! DEFINITION. Which terms of the syntax are well formed. A command's operands carry their widths in their types (R72,
R73), so a command has nothing left to check; an assembler line has the operand ranges of R76 and the shape of R77. -/

namespace Sys2Proof

/-- Every command is well formed: `cc` is 16 bits (R72), `i` is 8 bits (R73), END has no operand (R74). -/
def Instr.wellFormed : Instr → Bool
  | .start _ => true
  | .push _ => true
  | .endStream => true

/-- The range of a color count on a line (R76): 0 <= cc <= 65535. -/
def colorOperandOk (cc : Nat) : Bool := cc ≤ 65535

/-- The range of an index on a line (R76): 0 <= i <= 255. -/
def indexOperandOk (i : Nat) : Bool := i ≤ 255

/-- The checks of an assembler line (R76: "An operand outside its range is an assembly error"; R77: PUSHS lists at least
one index, ENCODE may list none). -/
def AsmLine.wellFormed : AsmLine → Bool
  | .start cc => colorOperandOk cc
  | .push i => indexOperandOk i
  | .endStream => true
  | .pushs is => !is.isEmpty && is.all indexOperandOk
  | .encode cc is => colorOperandOk cc && is.all indexOperandOk

end Sys2Proof
end

