-- ==== Sys2Proof/Decode.lean ====
section
/-! DEFINITION. The decoder of command words, total on all 2^32 words and rejecting by name (spec 30_encoding.md R70 to
R75), the encoder written from the same table, and the assembler's translation of a line into words (R76, R77). -/

namespace Sys2Proof

/-- `OPCODE`, bits 31:24 (R70). -/
def opcodeField (word : CmdWord) : BitVec 8 := word.extractLsb' 24 8

/-- START's reserved bits 23:16 (R72). -/
def startReserved (word : CmdWord) : BitVec 8 := word.extractLsb' 16 8

/-- START's operand, bits 15:0 (R72). -/
def colorField (word : CmdWord) : BitVec 16 := word.extractLsb' 0 16

/-- PUSH's reserved bits 23:8 (R73). -/
def pushReserved (word : CmdWord) : BitVec 16 := word.extractLsb' 8 16

/-- PUSH's operand, bits 7:0 (R73). -/
def indexField (word : CmdWord) : Byte := word.extractLsb' 0 8

/-- END's reserved bits 23:0 (R74). -/
def endReserved (word : CmdWord) : BitVec 24 := word.extractLsb' 0 24

/-- The command a word is, or why it is illegal (R71, R75). -/
def decode (word : CmdWord) : Decoded :=
  if opcodeField word = 0x01#8 then
    if startReserved word = 0#8 then .instr (.start (colorField word)) else .illegal .reservedBit
  else if opcodeField word = 0x02#8 then
    if pushReserved word = 0#16 then .instr (.push (indexField word)) else .illegal .reservedBit
  else if opcodeField word = 0x03#8 then
    if endReserved word = 0#24 then .instr .endStream else .illegal .reservedBit
  else .illegal .opcode

/-- The word of a command, field by field as the table of R70 lays it out, bit 31 leftmost. -/
def encode : Instr → CmdWord
  | .start cc => 0x01#8 ++ 0#8 ++ cc
  | .push i => 0x02#8 ++ 0#16 ++ i
  | .endStream => 0x03#8 ++ 0#24

/-- The command in a decoder's answer. -/
def Decoded.instr? : Decoded → Option Instr
  | .instr i => some i
  | .illegal _ => none

/-- What the decoder reads from a word of `nbits` bits, numbered as the opcode table numbers them. Every command is one
32-bit word (R70), so bits above `nbits` are 0 and more than 32 bits are no command. -/
def decodeTableWord (nbits w : Nat) : Option Instr :=
  if nbits ≤ 32 then (decode (BitVec.ofNat 32 (w % 2 ^ nbits))).instr? else none

/-- `START cc` on a line (R76): the word `0x0100_0000 | cc`. -/
def startWord (cc : Nat) : CmdWord := 0x01000000#32 ||| BitVec.ofNat 32 cc

/-- `PUSH i` on a line (R76): the word `0x0200_0000 | i`. -/
def pushWord (i : Nat) : CmdWord := 0x02000000#32 ||| BitVec.ofNat 32 i

/-- `END` on a line (R76). -/
def endWord : CmdWord := 0x03000000#32

/-- The words a line stands for, its operands taken to be in range (R76, R77). -/
def AsmLine.words : AsmLine → List CmdWord
  | .start cc => [startWord cc]
  | .push i => [pushWord i]
  | .endStream => [endWord]
  | .pushs is => is.map pushWord
  | .encode cc is => [startWord cc] ++ is.map pushWord ++ [endWord]

/-- The assembler on one line: its words, or refused with no word produced (R76). -/
def AsmLine.assemble (line : AsmLine) : Option (List CmdWord) :=
  if line.wellFormed then some line.words else none

end Sys2Proof
end

