-- ==== Sys2Proof/Config.lean ====
section
/-! DEFINITION. The implementation parameters of spec 00_scope.md R6. -/

namespace Sys2Proof.Config

/-- `LAST_CODE` (R6): the highest code there is. -/
@[simp] def lastCode : Nat := 4095

/-- `SUBBLOCK_MAX` (R6): the data bytes of a full sub-block. -/
@[simp] def subblockMax : Nat := 255

/-- `MIN_COLOR_COUNT` (R6, R143). -/
@[simp] def minColorCount : Nat := 4

/-- `MAX_COLOR_COUNT` (R6, R204). -/
@[simp] def maxColorCount : Nat := 256

/-- The most bytes any one command may append (R236: END, 256 + 256 + 1). -/
@[simp] def worstCommand : Nat := 513

/-- What an implementation's output queue holds beyond the worst case of one command. No body: `OUT_QUEUE_DEPTH` is an
OPEN parameter (R6), and no proof can use a value of it. -/
opaque outQueueSpare : Nat

/-- `OUT_QUEUE_DEPTH` (R6, OPEN). DEDUCED from R236 ("A realisation sizes `OUT_QUEUE_DEPTH` from these"): at least the
worst case of one command. Unsafe for a smaller queue: log entry 1. -/
@[irreducible] def outQueueDepth : Nat := outQueueSpare + worstCommand

end Sys2Proof.Config
end

