-- ==== Sys2Proof/Machine/State.lean ====
section
/-! DEFINITION. The state of the block and of its ports (spec 10_state.md R20 to R35, 20_memory.md R50, R51), and its
value after reset. -/

namespace Sys2Proof.Machine

/-- The control state `STATE` (R23). The values 5, 6 and 7 are never written (R24), so they are no values here. -/
inductive Ctl where
  /-- No job since reset. -/
  | idle
  /-- START accepted, no index yet. -/
  | armed
  /-- Indices are being scanned. -/
  | scanning
  /-- Job finished, terminator written. -/
  | done
  /-- A fault was raised; absorbing until reset. -/
  | fault
  deriving DecidableEq, Repr

/-- The error codes held in `ERR` (60_exceptions.md R201). -/
inductive Err where
  /-- `ERR_NONE`: no fault since reset. -/
  | noError
  /-- `ERR_EMPTY`: END in ARMED (R202). -/
  | empty
  /-- `ERR_INDEX`: index `i ≥ C` (R203). -/
  | index
  /-- `ERR_COLOR_RANGE`: `max(cc, 4) > 256` (R204). -/
  | colorRange
  /-- `ERR_SEQUENCE`: command not legal in the current `STATE` (R205). -/
  | sequence
  /-- `ERR_ILLEGAL`: illegal command word (R206). -/
  | illegal
  deriving DecidableEq, Repr

/-- One word of the output port: a byte and the end-of-job flag (R31, R83). -/
structure OutWord where
  byte : Byte
  last : Bool
  deriving DecidableEq, Repr

/-- One entry of the dictionary in table form (R123): the sequence is that of `pre` followed by the byte `suffix`, or the
one-byte sequence of `suffix` where `pre` is none (a literal); `code` is its code. -/
structure DictEntry where
  pre : Option Code
  suffix : Byte
  code : Code
  deriving DecidableEq, Repr

/-- What the host, or the platform's reset input, does at the ports (R20, R50, R230). -/
inductive HostAction where
  /-- Write a command word on the command port (R32, R54). -/
  | write (word : CmdWord)
  /-- Take one word from the output port (R54). -/
  | take
  /-- Read STATUS (R159). -/
  | readStatus
  /-- Assert the reset input (R230). -/
  | reset
  deriving DecidableEq, Repr

/-- Why the machine stops with a fault: never. A fault of this block is a state it goes on from (R200), so there is no
constructor; nothing raises one. -/
inductive Fault where
  deriving DecidableEq, Repr

/-- Why a command has no meaning. -/
inductive Refusal where
  /-- Only `exec` may answer this, for a command that has no meaning yet; no command of this model is left so. Safe. -/
  | notModelled (mnemonic : String)
  deriving DecidableEq, Repr

/-- The registers of the block (R21), its output queue (R51), and the two sides of its ports. -/
structure State where
  /-- `STATE` (R23). -/
  state : Ctl
  /-- `ERR` (R201). -/
  err : Err
  /-- `C`, the coerced color count. -/
  c : BitVec 9
  /-- `MCS`, the minimum code size. -/
  mcs : BitVec 4
  /-- `CS`, the width of the next code written. -/
  cs : BitVec 4
  /-- `NC`, the next unused code. -/
  nc : BitVec 13
  /-- `W`, the code of the pending sequence `P` (R27). -/
  w : Code
  /-- `D`, the Sequence Dictionary (R25), in the order its entries were made. -/
  dict : List DictEntry
  /-- `ACC`, the pending bits, bit 0 oldest (R28). -/
  acc : BitVec 8
  /-- `NB`, how many bits of `ACC` are pending (R28). -/
  nb : BitVec 3
  /-- `BUF`, the completed bytes, first byte oldest (R28). -/
  buf : List Byte
  /-- The output queue (R51): appended to `OUT` and not yet taken, oldest first. -/
  outQueue : List OutWord
  /-- The words of `OUT` the host has taken since reset, oldest first (R31, R54). -/
  taken : List OutWord
  /-- The command words written and not yet accepted, oldest first (R231, R234). -/
  cmds : List CmdWord
  /-- What the host does next, in order (R20). -/
  host : List HostAction
  /-- The STATUS words the host has read since reset, oldest first (R159). -/
  statusLog : List StatusWord
  deriving DecidableEq, Repr

/-- `OUT` (R31): every byte produced since reset with its `last` flag, the taken ones first. -/
def State.out (s : State) : List OutWord := s.taken ++ s.outQueue

/-- The machine right after reset (R35, R230, R231), with nothing written and a host that does nothing. -/
def State.reset : State where
  state := .idle
  err := .noError
  c := 0
  mcs := 0
  cs := 0
  nc := 0
  w := 0
  dict := []
  acc := 0
  nb := 0
  buf := []
  outQueue := []
  taken := []
  cmds := []
  host := []
  statusLog := []

end Sys2Proof.Machine
end

