-- ==== Sys2Proof/Machine/Ops.lean ====
section
/-! DEFINITION. The shared operations: raising a fault (spec 60_exceptions.md R200), OutAppend (00_scope.md R9), the Bit
Packer (41_bit_packer.md), the Sequence Dictionary (42_dictionary.md) and the Sub-block Emitter (44_subblock.md). -/

namespace Sys2Proof.Machine

/-- `raise Fault(e)` (R200): `ERR <- e`; `STATE <- FAULT`; every other register keeps its value. There is no return from a
fault but reset (R209). -/
def raiseFault (e : Err) (s : State) : State :=
  { s with err := e, state := .fault }

/-- `bitlen(x)`: the number of bits of `x` without leading zeros (R8). -/
def bitlen (x : Nat) : Nat := if x = 0 then 0 else x.log2 + 1

/-- `mask(w) = 2^w - 1` (R8). -/
def mask (w : Nat) : Nat := 2 ^ w - 1

/-! ### Output -/

/-- Bytes as words of the output port, `last = 0` (R9). -/
def plainWords (bytes : List Byte) : List OutWord :=
  bytes.map fun b => { byte := b, last := false }

/-- `OutAppend(b, last)` (R9, R31): the byte joins the end of `OUT`. -/
def outAppend (b : Byte) (last : Bool) (s : State) : State :=
  { s with outQueue := s.outQueue ++ [{ byte := b, last := last }] }

/-! ### Sub-block Emitter -/

/-- A data sub-block (R82): the length byte, then the data bytes. -/
def subBlock (data : List Byte) : List OutWord :=
  plainWords (BitVec.ofNat 8 data.length :: data)

/-- The loop of Drain (R180) on `BUF` and the output queue. `fuel` bounds the turns; each takes 255 bytes from `BUF`. -/
def drainLoop : (fuel : Nat) → List Byte → List OutWord → List Byte × List OutWord
  | 0, buf, queue => (buf, queue)
  | fuel + 1, buf, queue =>
    if Config.subblockMax ≤ buf.length then
      drainLoop fuel (buf.drop Config.subblockMax) (queue ++ subBlock (buf.take Config.subblockMax))
    else (buf, queue)

/-- Drain() (R180): emit every full sub-block. -/
def drain (s : State) : State :=
  let r := drainLoop s.buf.length s.buf s.outQueue
  { s with buf := r.1, outQueue := r.2 }

/-- FinalFrame() (R181): the last sub-block, if a byte is left, and the terminator 0x00 with `last = 1`. -/
def finalFrame (s : State) : State :=
  let sent := if 0 < s.buf.length then subBlock s.buf else []
  outAppend 0x00#8 true { s with outQueue := s.outQueue ++ sent, buf := [] }

/-! ### Bit Packer -/

/-- The loop of WriteBits (R100) on (`ACC`, `NB`, `BUF`), `ACC` and `NB` at their width during the operation. `fuel`
bounds the turns; each takes 8 from `NB`. -/
def emitBytes : (fuel : Nat) → (acc nb : Nat) → List Byte → Nat × Nat × List Byte
  | 0, acc, nb, buf => (acc, nb, buf)
  | fuel + 1, acc, nb, buf =>
    if 8 ≤ nb then emitBytes fuel (acc >>> 8) (nb - 8) (buf ++ [BitVec.ofNat 8 acc]) else (acc, nb, buf)

/-- WriteBits(v, w) (R100): append the low `w` bits of `v` to the bit stream. -/
def writeBits (v w : Nat) (s : State) : State :=
  let acc := s.acc.toNat ||| ((v &&& mask w) <<< s.nb.toNat)
  let nb := s.nb.toNat + w
  let r := emitBytes nb acc nb s.buf
  { s with acc := BitVec.ofNat 8 r.1, nb := BitVec.ofNat 3 r.2.1, buf := r.2.2 }

/-- Flush() (R101): complete the last partial byte with zero bits. -/
def flush (s : State) : State :=
  { s with buf := if 0 < s.nb.toNat then s.buf ++ [s.acc] else s.buf, acc := 0, nb := 0 }

/-- ClearPacker() (R102): discard all pending state. -/
def clearPacker (s : State) : State :=
  { s with acc := 0, nb := 0, buf := [] }

/-- WriteCode(v) (R103): write one code at the width `CS` holds now, and drain full sub-blocks. -/
def writeCode (v : Nat) (s : State) : State :=
  drain (writeBits v s.cs.toNat s)

/-! ### Sequence Dictionary -/

/-- The literals `[0]..[n-1]` with codes `0..n-1` (R120). -/
def literals (n : Nat) : List DictEntry :=
  (List.range n).map fun j => { pre := none, suffix := BitVec.ofNat 8 j, code := BitVec.ofNat 12 j }

/-- DictReset(C) (R120): only the literals remain, and `NC <- C + 2`. -/
def dictReset (c : BitVec 9) (s : State) : State :=
  { s with dict := literals c.toNat, nc := BitVec.ofNat 13 (c.toNat + 2) }

/-- The table form of DictLookup (R123): the code of the entry with key (`pre`, `i`), if there is one. -/
def dictFind (d : List DictEntry) (pre : Option Code) (i : Byte) : Option Code :=
  (d.find? fun e => e.pre == pre && e.suffix == i).map (·.code)

/-- The code of a sequence whose first bytes have the code `pre`, the rest of it being the list (R123). -/
def dictWalk (d : List DictEntry) : Option Code → List Byte → Option Code
  | pre, [] => pre
  | pre, i :: rest =>
    match dictFind d pre i with
    | some k => dictWalk d (some k) rest
    | none => none

/-- DictLookup(s) (R121) for a whole sequence, compared byte by byte (R125): `D(s)`, or none. The empty sequence is in no
dictionary (R10). -/
def dictLookup (d : List DictEntry) (s : List Byte) : Option Code :=
  dictWalk d none s

/-- DictInsert(P ++ [i], k) (R122) in the table form (R123): `p` is `D(P)`. -/
def dictInsert (p : Code) (i : Byte) (k : Code) (s : State) : State :=
  { s with dict := s.dict ++ [{ pre := some p, suffix := i, code := k }] }

end Sys2Proof.Machine
end

