-- ==== Sys2Proof/Machine/Operands.lean ====
section
/-! DEFINITION. The operands of the commands: the coercion of START's color count and the minimum code size (spec
43_driver.md R143), and the index of a PUSH (R73, R145). -/

namespace Sys2Proof.Machine

/-- `C = max(cc, 4)` before the range check (R143). -/
def coerceColors (cc : BitVec 16) : Nat := max cc.toNat Config.minColorCount

/-- `MCS = bitlen(C - 1)` (R143). -/
def minCodeSize (c : Nat) : Nat := bitlen (c - 1)

/-- The literal code of an index (R79): the index itself. -/
def literalCode (i : Byte) : Code := i.setWidth 12

/-- `i < C`: the index has a literal (R145). -/
def indexInRange (i : Byte) (s : State) : Bool := i.toNat < s.c.toNat

end Sys2Proof.Machine
end

