-- ==== Sys2Proof/Machine/Flags.lean ====
section
/-! DEFINITION. The status the host sees: the codes of `STATE` and `ERR`, the STATUS word (spec 10_state.md R33) and the
9-bit word of the output port (30_encoding.md R83). The block has no other flag (R23). -/

namespace Sys2Proof.Machine

/-- The 3-bit value of `STATE` (R21, R23). -/
def Ctl.code : Ctl → BitVec 3
  | .idle => 0
  | .armed => 1
  | .scanning => 2
  | .done => 3
  | .fault => 4

/-- The 4-bit value of `ERR` (R201). -/
def Err.code : Err → BitVec 4
  | .noError => 0
  | .empty => 1
  | .index => 2
  | .colorRange => 3
  | .sequence => 4
  | .illegal => 5

/-- STATUS (R33): fields NEXT_CODE 27:16, MIN_CODE_SIZE 15:12, CODE_SIZE 11:8, ERR 7:4, STATE 2:0; bits 31:28 and 3 read
0. -/
def State.statusWord (s : State) : StatusWord :=
  0#4 ++ s.nc.extractLsb' 0 12 ++ s.mcs ++ s.cs ++ s.err.code ++ 0#1 ++ s.state.code

/-- The output port's 9-bit word (R83). -/
def OutWord.portWord (o : OutWord) : PortWord := BitVec.ofBool o.last ++ o.byte

end Sys2Proof.Machine
end

