-- ==== Sys2Proof/Machine/Driver.lean ====
section
/-! DEFINITION. The meanings of the commands (spec 43_driver.md): START R142, PUSH R144, END R155, and of an illegal word
(R206). Every one of them answers a next state: a fault of the block is a state (60_exceptions.md R200). -/

namespace Sys2Proof.Machine

/-! ### START -/

/-- START's effect once its checks pass (R142), `cn` the coerced color count. -/
def openJob (cn : Nat) (s : State) : State :=
  let s1 : State :=
    { s with
      c := BitVec.ofNat 9 cn
      mcs := BitVec.ofNat 4 (minCodeSize cn)
      cs := BitVec.ofNat 4 (minCodeSize cn + 1) }
  let s2 : State := { dictReset s1.c s1 with w := 0 }
  { clearPacker s2 with state := .armed }

/-- START cc (R142). The checks stand in the order of R208. -/
def execStart (cc : BitVec 16) (s : State) : Host.Outcome State Fault Refusal :=
  if s.state = .fault then .next s
  else if s.state ≠ .idle ∧ s.state ≠ .done then .next (raiseFault .sequence s)
  else if Config.maxColorCount < coerceColors cc then .next (raiseFault .colorRange s)
  else .next (openJob (coerceColors cc) s)

/-! ### PUSH -/

/-- The first index of a job (R146): the byte `MCS` unframed, the Clear code, `P <- [i]`. -/
def pushFirst (i : Byte) (s : State) : State :=
  let s1 := writeCode s.c.toNat (outAppend (s.mcs.setWidth 8) false s)
  { s1 with w := literalCode i, state := .scanning }

/-- The ceiling reset (R152): Clear at the current width, the dictionary and `CS` back to their initial values. -/
def ceilingReset (s : State) : State :=
  let s1 := dictReset s.c (writeCode s.c.toNat s)
  { s1 with cs := s1.mcs + 1 }

/-- A mismatch (R149): insert `P ++ [i]` under `k = NC` (R150), write the code of `P` (R151), `P <- [i]`, then the ceiling
reset (R152), or the width growth (R153), or neither. -/
def pushMismatch (i : Byte) (s : State) : State :=
  let k := s.nc
  let s1 : State := { dictInsert s.w i (k.setWidth 12) s with nc := k + 1 }
  let s2 : State := { writeCode s.w.toNat s1 with w := literalCode i }
  if k.toNat = Config.lastCode then ceilingReset s2
  else if k.toNat = 2 ^ s2.cs.toNat then { s2 with cs := s2.cs + 1 }
  else s2

/-- A later index of a job (R147): a match makes `P ++ [i]` the pending sequence and does nothing else (R148). -/
def pushNext (i : Byte) (s : State) : State :=
  match dictFind s.dict (some s.w) i with
  | some k2 => { s with w := k2 }
  | none => pushMismatch i s

/-- PUSH i (R144). The checks stand in the order of R208. -/
def execPush (i : Byte) (s : State) : Host.Outcome State Fault Refusal :=
  if s.state = .fault then .next s
  else if s.state ≠ .armed ∧ s.state ≠ .scanning then .next (raiseFault .sequence s)
  else if indexInRange i s = false then .next (raiseFault .index s)
  else if s.state = .armed then .next (pushFirst i s)
  else .next (pushNext i s)

/-! ### END -/

/-- END's effect once its checks pass (R155): the final code, EOI, the flush and the last frame. -/
def closeJob (s : State) : State :=
  let s1 := writeCode s.w.toNat s
  let s2 := writeCode (s1.c.toNat + 1) s1
  { finalFrame (flush s2) with state := .done }

/-- END (R155). The checks stand in the order of R208. -/
def execEnd (s : State) : Host.Outcome State Fault Refusal :=
  if s.state = .fault then .next s
  else if s.state = .armed then .next (raiseFault .empty s)
  else if s.state ≠ .scanning then .next (raiseFault .sequence s)
  else .next (closeJob s)

/-! ### Illegal words -/

/-- An illegal word (R206): `ERR_ILLEGAL` in any state but FAULT, where it is ignored (R211). -/
def execIllegal (s : State) : Host.Outcome State Fault Refusal :=
  if s.state = .fault then .next s else .next (raiseFault .illegal s)

end Sys2Proof.Machine
end

