-- ==== Sys2Proof/Machine/Dispatch.lean ====
section
/-! DEFINITION. One arm per command (spec 43_driver.md R141). -/

namespace Sys2Proof.Machine

def exec (i : Instr) (s : State) : Host.Outcome State Fault Refusal :=
  match i with
  | .start cc => Sys2Proof.Machine.execStart cc s
  | .push idx => Sys2Proof.Machine.execPush idx s
  | .endStream => Sys2Proof.Machine.execEnd s

end Sys2Proof.Machine
end

