-- ==== Sys2Proof/Machine/Ports.lean ====
section
/-! DEFINITION. The ports: when a waiting command word is accepted (spec 70_reset_and_hazards.md R234, R236), what an
accepted word does (43_driver.md R141), and what the host and the reset input do (20_memory.md R54, R159, R230, R231). -/

namespace Sys2Proof.Machine

/-- The most bytes a command word may append in the state it meets (R236): the first PUSH of a job 1, a later one 256, END
of a job 513, anything else none. DESIGN CHOICE, unsafe: log entry 2. -/
def mayProduce (word : CmdWord) (s : State) : Nat :=
  match decode word, s.state with
  | .instr (.push _), .armed => 1
  | .instr (.push _), .scanning => 256
  | .instr .endStream, .scanning => 513
  | _, _ => 0

/-- The output queue can absorb what the word may produce (R234). The first test settles what every queue can absorb, whatever
`OUT_QUEUE_DEPTH` is (log entry 1), so that it evaluates on numerals. -/
def canAccept (word : CmdWord) (s : State) : Bool :=
  s.outQueue.length + mayProduce word s ≤ Config.worstCommand ||
    s.outQueue.length + mayProduce word s ≤ Config.outQueueDepth

/-- The oldest waiting word, if it can be accepted, and the state without it: each word is consumed once (R54). -/
def acceptNext (s : State) : Option (CmdWord × State) :=
  match s.cmds with
  | [] => none
  | word :: rest => if canAccept word s then some (word, { s with cmds := rest }) else none

/-- An accepted word (R141): an illegal one raises `ERR_ILLEGAL`, any other is its command. -/
def runWord (word : CmdWord) (s : State) : Host.Outcome State Fault Refusal :=
  match decode word with
  | .instr i => exec i s
  | .illegal _ => execIllegal s

/-- The host takes the oldest word of the output port; an empty port gives none (R54; log entry 4). -/
def takeWord (s : State) : State :=
  match s.outQueue with
  | [] => s
  | o :: rest => { s with outQueue := rest, taken := s.taken ++ [o] }

/-- Every queued word is taken. -/
def takeAll (s : State) : State :=
  { s with outQueue := [], taken := s.taken ++ s.outQueue }

/-- The reset input (R230, R231): every register at its reset value, queued output and waiting words discarded; what the
host does next is the host's and stays. -/
def resetBlock (s : State) : State :=
  { State.reset with host := s.host }

/-- One action at the ports. -/
def hostAct (a : HostAction) (s : State) : State :=
  match a with
  | .write word => { s with cmds := s.cmds ++ [word] }
  | .take => takeWord s
  | .readStatus => { s with statusLog := s.statusLog ++ [s.statusWord] }
  | .reset => resetBlock s

/-- The host's next action, where there is one; else nothing happens: the block waits (R217, R234). -/
def hostNext (s : State) : State :=
  match s.host with
  | [] => s
  | a :: rest => hostAct a { s with host := rest }

/-- A 32-bit word at the front of the command port, and room in the output queue for what it may produce (made by taking
what is queued, where that is needed). -/
def placeWord (word : CmdWord) (s : State) : State :=
  let roomy := if canAccept word s then s else takeAll s
  { roomy with cmds := word :: roomy.cmds }

end Sys2Proof.Machine
end

