-- ==== Sys2Proof/Machine/Step.lean ====
section
/-! DEFINITION. One step of the machine: the block accepts and performs the oldest waiting command word as one atomic step
(spec 43_driver.md R140), or, where there is none it can accept, the host acts (10_state.md R20). -/

namespace Sys2Proof.Machine

/-- One step. Every step answers a next state. -/
def step (s : State) : Host.Outcome State Fault Refusal :=
  match acceptNext s with
  | some (word, s') => runWord word s'
  | none => .next (hostNext s)

/-- The state in which the next step accepts the word `w` of `nbits` bits. -/
def State.withFetchWord (s : State) (nbits w : Nat) : State :=
  placeWord (BitVec.ofNat 32 (w % 2 ^ nbits)) s

end Sys2Proof.Machine
end

