-- ==== Sys2Proof/Machine/Assembler.lean ====
section
/-! DEFINITION. The assembler's text (spec 30_encoding.md R76, R77): one line to its words, or refused. What the rules
leave open of the text (blanks, commas, capitals) is log entry 8. -/

namespace Sys2Proof.Machine

/-- What is left of a line before its comment: "A `;` starts a comment" (R76). -/
def stripComment (line : List Char) : List Char := line.takeWhile (· != ';')

/-- What parts the words of a line. DESIGN CHOICE, log entry 8: a space, a tab, and a carriage return, the spec giving no
line-end convention. -/
def isBlank (c : Char) : Bool := c == ' ' || c == '\t' || c == '\r'

/-- Put a finished word before the tokens that follow it. -/
def closeToken (word : List Char) (rest : List (List Char)) : List (List Char) :=
  if word.isEmpty then rest else word :: rest

/-- The words of a line and its commas, each a token; `word` is the word being read. -/
def tokensFrom : (word : List Char) → List Char → List (List Char)
  | word, [] => closeToken word []
  | word, c :: rest =>
    if isBlank c then closeToken word (tokensFrom [] rest)
    else if c == ',' then closeToken word ([','] :: tokensFrom [] rest)
    else tokensFrom (word ++ [c]) rest

def decimalDigit (c : Char) : Option Nat :=
  if '0' ≤ c ∧ c ≤ '9' then some (c.toNat - '0'.toNat) else none

def hexDigit (c : Char) : Option Nat :=
  if '0' ≤ c ∧ c ≤ '9' then some (c.toNat - '0'.toNat)
  else if 'a' ≤ c ∧ c ≤ 'f' then some (c.toNat - 'a'.toNat + 10)
  else if 'A' ≤ c ∧ c ≤ 'F' then some (c.toNat - 'A'.toNat + 10)
  else none

/-- The number a list of digits stands for, most significant first, after the digits that gave `acc`. -/
def digitsValue (base : Nat) (digit : Char → Option Nat) : (acc : Nat) → List Char → Option Nat
  | acc, [] => some acc
  | acc, c :: rest =>
    match digit c with
    | some d => digitsValue base digit (acc * base + d) rest
    | none => none

/-- An operand: decimal, or hexadecimal after `0x` (R76). -/
def parseNumber : List Char → Option Nat
  | [] => none
  | '0' :: 'x' :: [] => none
  | '0' :: 'x' :: hex => digitsValue 16 hexDigit 0 hex
  | decimal => digitsValue 10 decimalDigit 0 decimal

/-- Operands separated by commas, at least one. -/
def parseOperands : List (List Char) → Option (List Nat)
  | [] => none
  | [t] => (parseNumber t).map fun n => [n]
  | t :: comma :: rest =>
    if comma == [','] then
      match parseNumber t, parseOperands rest with
      | some n, some ns => some (n :: ns)
      | _, _ => none
    else none

/-- A line's tokens as a line of the assembler (R76, R77). -/
def parseTokens : List (List Char) → Option AsmLine
  | [] => none
  | name :: operands =>
    if name == ['E', 'N', 'D'] then if operands.isEmpty then some .endStream else none
    else if name == ['S', 'T', 'A', 'R', 'T'] then
      match parseOperands operands with
      | some [cc] => some (.start cc)
      | _ => none
    else if name == ['P', 'U', 'S', 'H'] then
      match parseOperands operands with
      | some [i] => some (.push i)
      | _ => none
    else if name == ['P', 'U', 'S', 'H', 'S'] then
      match parseOperands operands with
      | some is => some (.pushs is)
      | none => none
    else if name == ['E', 'N', 'C', 'O', 'D', 'E'] then
      match parseOperands operands with
      | some (cc :: is) => some (.encode cc is)
      | _ => none
    else none

/-- One line of text: its words, none of them for a blank line or a comment, or refused (R76). -/
def assembleLine (line : List Char) : Option (List CmdWord) :=
  match tokensFrom [] (stripComment line) with
  | [] => some []
  | t :: ts =>
    match parseTokens (t :: ts) with
    | some l => l.assemble
    | none => none

/-- A text, one command per line (R76): each line's answer, in order. DESIGN CHOICE, log entry 8: a line feed ends a line, and
a refused line does not stop the lines after it. -/
def assembleText (text : List Char) : List (Option (List CmdWord)) :=
  (text.splitOn '\n').map assembleLine

end Sys2Proof.Machine
end

