-- ==== Sys2Proof/Machine/Reference.lean ====
section
/-! DEFINITION. A job as a function (spec 43_driver.md R160), written apart from the machine: a dictionary of whole
sequences (00_scope.md R10, 42_dictionary.md R120 to R122), the codes of a job with their widths (R149 to R155), the bit
stream cut into bytes (41_bit_packer.md R104), and the framing (44_subblock.md R182). Claims compare the machine with it. -/

namespace Sys2Proof.Reference

open Sys2Proof.Machine

/-- `D` as a map of sequences, compared by content (R10, R125). -/
abbrev SeqMap := List (List Byte × Nat)

/-- `D(s)`, or none where `s ∉ dom(D)` (R121). -/
def codeOf (d : SeqMap) (s : List Byte) : Option Nat := d.lookup s

/-- The literals (R120). -/
def literalMap (c : Nat) : SeqMap :=
  (List.range c).map fun j => ([BitVec.ofNat 8 j], j)

/-- A code and the width it is written with. -/
abbrev SizedCode := Nat × Nat

/-- The codes written from here to the end of a job with color count `c`: `d` the dictionary, `nc` the next unused code,
`cs` the code size, `p` the pending sequence, then the indices still to come (R147 to R155). -/
def codesFrom (c : Nat) : SeqMap → (nc cs : Nat) → (p : List Byte) → List Byte → List SizedCode
  | d, _, cs, p, [] => [((codeOf d p).getD 0, cs), (c + 1, cs)]
  | d, nc, cs, p, i :: rest =>
    match codeOf d (p ++ [i]) with
    | some _ => codesFrom c d nc cs (p ++ [i]) rest
    | none =>
      ((codeOf d p).getD 0, cs) ::
        (if nc = Config.lastCode then
          (c, cs) :: codesFrom c (literalMap c) (c + 2) (minCodeSize c + 1) [i] rest
        else
          codesFrom c ((p ++ [i], nc) :: d) (nc + 1) (if nc = 2 ^ cs then cs + 1 else cs) [i] rest)

/-- The codes of the job with color count `c` and indices `x0` and then `xs`, in the order they are written: Clear first
(R146). -/
def jobCodes (c : Nat) (x0 : Byte) (xs : List Byte) : List SizedCode :=
  (c, minCodeSize c + 1) :: codesFrom c (literalMap c) (c + 2) (minCodeSize c + 1) [x0] xs

/-- The bits of a code, from its bit 0 upward (R81). -/
def codeBits (v w : Nat) : List Bool := (List.range w).map v.testBit

/-- The bit stream of a list of codes (R104). -/
def bitStream (codes : List SizedCode) : List Bool := codes.flatMap fun vw => codeBits vw.1 vw.2

/-- A byte from the bits given it, bit 0 first, the rest 0. -/
def byteOfBits (bits : List Bool) : Byte := BitVec.ofNat 8 (bits.foldr (fun b n => b.toNat + 2 * n) 0)

/-- A bit stream cut into bytes, stream bit `8n + j` becoming bit `j` of byte `n`, the last byte completed with 0 bits (R81,
R104). -/
def packBits (bits : List Bool) : List Byte :=
  (List.range ((bits.length + 7) / 8)).map fun n => byteOfBits ((bits.drop (8 * n)).take 8)

/-- The framing of a job's packed data (R182), without the terminator. -/
def frame (data : List Byte) : List Byte :=
  ((List.range (data.length / 255)).flatMap fun j => 0xFF#8 :: (data.drop (255 * j)).take 255) ++
    (if 0 < data.length % 255 then
      BitVec.ofNat 8 (data.length % 255) :: data.drop (255 * (data.length / 255))
    else [])

/-- The words a job appends to `OUT` (R78, R160): the minimum code size, the framed codes, the terminator with `last = 1`
(R83). -/
def jobOutput (c : Nat) (x0 : Byte) (xs : List Byte) : List OutWord :=
  plainWords (BitVec.ofNat 8 (minCodeSize c) :: frame (packBits (bitStream (jobCodes c x0 xs)))) ++
    [{ byte := 0x00#8, last := true }]

/-- A list of commands performed one after another (R140). -/
def execAll : List Instr → State → Host.Outcome State Fault Refusal
  | [], s => .next s
  | i :: rest, s =>
    match exec i s with
    | .next t => execAll rest t
    | .fault r => .fault r
    | .refused r => .refused r

end Sys2Proof.Reference
end

