-- ==== Sys2Proof/Safety.lean ====
section
/-! DEFINITION. What claims say of a state: the legal values between commands (spec 10_state.md R21, R26 to R30), the shape
of `OUT` (30_encoding.md R78, R83, 60_exceptions.md R210), the bits still in the packer (R28, R104), and the
state-transition table (43_driver.md R158). -/

namespace Sys2Proof.Safety

open Sys2Proof.Machine

/-- The bits in the packer, oldest first: those of `BUF`, then the `NB` pending ones of `ACC` (R28, R104). -/
def pendingBits (s : State) : List Bool :=
  s.buf.flatMap (fun b => Reference.codeBits b.toNat 8) ++ Reference.codeBits s.acc.toNat s.nb.toNat

/-- The codes of a dictionary's entries, in order. -/
def dictCodes (d : List DictEntry) : List Code := d.map (·.code)

/-- The dictionary between commands of a job (R26), `c` the color count and `nc` the next unused code. -/
structure DictOk (c nc : Nat) (d : List DictEntry) : Prop where
  /-- The literals come first (R26.1). -/
  literals_first : d.take c = literals c
  /-- One entry for each code `0..c-1` and `c+2..nc-1` (R26.1), so none for Clear and EOI (R26.3). -/
  codes : d.map (fun e => e.code.toNat) = List.range c ++ List.range' (c + 2) (nc - (c + 2))
  /-- Every other entry extends one with a smaller code (R26.2). -/
  extends_earlier : ∀ e ∈ d.drop c, ∃ p ∈ dictCodes d, e.pre = some p ∧ p.toNat < e.code.toNat
  /-- No two entries have one key (R26.1). -/
  keys_distinct : (d.map fun e => (e.pre, e.suffix)).Nodup

/-- The registers of a job between commands (R21, R26, R29). -/
structure JobOk (s : State) : Prop where
  c_range : 4 ≤ s.c.toNat ∧ s.c.toNat ≤ 256
  mcs_eq : s.mcs.toNat = minCodeSize s.c.toNat
  nc_range : s.c.toNat + 2 ≤ s.nc.toNat ∧ s.nc.toNat ≤ Config.lastCode
  /-- R29. -/
  cs_eq : s.cs.toNat = max (s.mcs.toNat + 1) (bitlen (s.nc.toNat - 1))
  dict_ok : DictOk s.c.toNat s.nc.toNat s.dict

/-- The packer is empty (R30). -/
def PackerEmpty (s : State) : Prop := s.acc = 0 ∧ s.nb = 0 ∧ s.buf = []

/-- The registers of IDLE (R21: 0 before the first START). -/
def Unused (s : State) : Prop :=
  s.c = 0 ∧ s.mcs = 0 ∧ s.cs = 0 ∧ s.nc = 0 ∧ s.w = 0 ∧ s.dict = [] ∧ PackerEmpty s

/-- A job is open or finished: ARMED, SCANNING or DONE. -/
def InJob (s : State) : Prop := s.state = .armed ∨ s.state = .scanning ∨ s.state = .done

/-- The legal values between commands. -/
structure Inv (s : State) : Prop where
  /-- `ERR` is set exactly in FAULT (R200, R201). -/
  err_iff : s.err = .noError ↔ s.state ≠ .fault
  /-- `ACC < 2^NB` (R21, R28). -/
  acc_lt : s.acc.toNat < 2 ^ s.nb.toNat
  /-- `BUF` holds at most 254 bytes (R7, R21). -/
  buf_le : s.buf.length ≤ 254
  /-- The output queue holds at most what it can (R51, R234). -/
  queue_le : s.outQueue.length ≤ Config.outQueueDepth
  idle : s.state = .idle → Unused s
  job : InJob s → JobOk s
  /-- R30: ARMED holds the START values. -/
  armed : s.state = .armed → s.w = 0 ∧ s.nc.toNat = s.c.toNat + 2 ∧ PackerEmpty s
  /-- R27: `W` is the code of a sequence of the dictionary. -/
  scanning : s.state = .scanning → s.w ∈ dictCodes s.dict
  /-- R30: DONE leaves the packer empty. -/
  done : s.state = .done → PackerEmpty s

/-- The words of one finished job (R78): the minimum code size byte, its framed data (R182), the terminator 0x00, the only
word with `last = 1` (R83). -/
def jobWords (mcs : Byte) (data : List Byte) : List OutWord :=
  plainWords (mcs :: Reference.frame data) ++ [{ byte := 0x00#8, last := true }]

/-- The words are the output of finished jobs, one after another; a job has a minimum code size of 2 to 8 and some data
(R78). -/
def finished (words : List OutWord) : Prop :=
  ∃ jobs : List (Byte × List Byte), (∀ j ∈ jobs, 2 ≤ j.1.toNat ∧ j.1.toNat ≤ 8 ∧ j.2 ≠ []) ∧
    words = jobs.flatMap fun j => jobWords j.1 j.2

/-- The output of a job that is not finished (R210): the minimum code size byte, then whole 255-byte sub-blocks. -/
def partialJob (mcs : BitVec 4) (words : List OutWord) : Prop :=
  2 ≤ mcs.toNat ∧ mcs.toNat ≤ 8 ∧ ∃ blocks : List (List Byte), (∀ b ∈ blocks, b.length = 255) ∧
    words = plainWords [mcs.setWidth 8] ++ blocks.flatMap subBlock

/-- `OUT` is what the control state says (R78, R83, R210, R235). -/
structure OutOk (s : State) : Prop where
  idle : s.state = .idle → s.out = []
  armed : s.state = .armed → finished s.out
  scanning : s.state = .scanning → ∃ before now, finished before ∧ partialJob s.mcs now ∧ s.out = before ++ now
  /-- The last job is finished: the last word is its terminator (R235). -/
  done : s.state = .done → finished s.out ∧ s.out ≠ []
  fault : s.state = .fault → finished s.out ∨
    ∃ before now, finished before ∧ partialJob s.mcs now ∧ s.out = before ++ now

/-- The state-transition table (R158): `STATE` after a word, and the fault raised, if any. `word` is the decoder's answer. -/
def transition (word : Decoded) (s : State) : Ctl × Option Err :=
  match s.state, word with
  | .fault, _ => (.fault, none)
  | _, .illegal _ => (.fault, some .illegal)
  | .idle, .instr (.start cc) | .done, .instr (.start cc) =>
    if max cc.toNat 4 ≤ 256 then (.armed, none) else (.fault, some .colorRange)
  | .armed, .instr (.start _) | .scanning, .instr (.start _) => (.fault, some .sequence)
  | .idle, .instr (.push _) | .done, .instr (.push _) => (.fault, some .sequence)
  | .armed, .instr (.push i) | .scanning, .instr (.push i) =>
    if i.toNat < s.c.toNat then (.scanning, none) else (.fault, some .index)
  | .armed, .instr .endStream => (.fault, some .empty)
  | .scanning, .instr .endStream => (.done, none)
  | .idle, .instr .endStream | .done, .instr .endStream => (.fault, some .sequence)

end Sys2Proof.Safety
end

