-- ==== Sys2Proof/Certificates/Slice0/Obligations.lean ====
section
/-! DEFINITION. The statements for the provers, from the numbered rules of spec/. OBLIGATIONS.json lists them. -/

open Sys2Proof Sys2Proof.Machine Sys2Proof.Safety

/-! ### Encoding -/

/-- A word decodes to a command exactly when it is that command's word (R70 to R75). -/
def Obligations.DecodesExactlyItsEncoding : Prop :=
  ∀ (word : CmdWord) (i : Instr), decode word = .instr i ↔ word = encode i

/-- Words written out bit by bit from the table of R70 decode to the commands they stand for. -/
def Obligations.TableRowWordsDecode : Prop :=
  decode 0b00000001_00000000_00000001_00000010#32 = .instr (.start 0x0102) ∧
  decode 0b00000001_00000000_11111111_11111111#32 = .instr (.start 0xFFFF) ∧
  decode 0b00000010_00000000_00000000_10000001#32 = .instr (.push 0x81) ∧
  decode 0b00000011_00000000_00000000_00000000#32 = .instr .endStream

/-- R75: which words are illegal, and that an illegal one raises `ERR_ILLEGAL` in any state but FAULT and has no other
effect; every other word is a command. Fields are read as numbers, bit 31 the most significant. -/
def Obligations.IllegalWordsRaiseIllegal : Prop :=
  ∀ (word : CmdWord) (s : State),
    let op := word.toNat / 2 ^ 24
    let bad := (op ≠ 1 ∧ op ≠ 2 ∧ op ≠ 3) ∨ (op = 1 ∧ word.toNat / 2 ^ 16 % 2 ^ 8 ≠ 0) ∨
      (op = 2 ∧ word.toNat / 2 ^ 8 % 2 ^ 16 ≠ 0) ∨ (op = 3 ∧ word.toNat % 2 ^ 24 ≠ 0)
    (bad → runWord word s = .next (if s.state = .fault then s else { s with err := .illegal, state := .fault })) ∧
    (¬bad → ∃ i, decode word = .instr i ∧ runWord word s = exec i s)

/-- R77: PUSHS is its PUSHes in order, ENCODE is START, PUSHS and END, and ENCODE with no index is START and END; one
operand out of range and no word is produced. -/
def Obligations.PseudoInstructionsExpand : Prop :=
  (∀ is : List Nat, is ≠ [] →
    (AsmLine.pushs is).assemble = (is.mapM fun i => (AsmLine.push i).assemble).map List.flatten) ∧
  (∀ (cc : Nat) (is : List Nat), is ≠ [] → (AsmLine.encode cc is).assemble =
    ([AsmLine.start cc, AsmLine.pushs is, AsmLine.endStream].mapM AsmLine.assemble).map List.flatten) ∧
  (∀ cc : Nat, (AsmLine.encode cc []).assemble =
    ([AsmLine.start cc, AsmLine.endStream].mapM AsmLine.assemble).map List.flatten)

/-- R76: the word of each line, an operand outside its range refused, and the word decodes to the command of the line. -/
def Obligations.AssemblerLinesMakeTheirCommand : Prop :=
  (∀ cc : Nat, (AsmLine.start cc).assemble = if cc ≤ 65535 then some [0x01000000#32 ||| BitVec.ofNat 32 cc] else none) ∧
  (∀ i : Nat, (AsmLine.push i).assemble = if i ≤ 255 then some [0x02000000#32 ||| BitVec.ofNat 32 i] else none) ∧
  AsmLine.endStream.assemble = some [0x03000000#32] ∧
  (∀ cc ≤ 65535, decode (0x01000000#32 ||| BitVec.ofNat 32 cc) = .instr (.start (BitVec.ofNat 16 cc))) ∧
  (∀ i ≤ 255, decode (0x02000000#32 ||| BitVec.ofNat 32 i) = .instr (.push (BitVec.ofNat 8 i))) ∧
  decode 0x03000000#32 = .instr .endStream

/-! ### Reset and STATUS -/

/-- R35: every register after reset, STATUS, and an empty output queue. -/
def Obligations.ResetLeavesEveryRegisterCleared : Prop :=
  State.reset.state = .idle ∧ State.reset.err = .noError ∧ State.reset.c = 0 ∧ State.reset.mcs = 0 ∧
  State.reset.cs = 0 ∧ State.reset.nc = 0 ∧ State.reset.w = 0 ∧ State.reset.dict = [] ∧ State.reset.acc = 0 ∧
  State.reset.nb = 0 ∧ State.reset.buf = [] ∧ State.reset.statusWord = 0x00000000#32 ∧ State.reset.outQueue = []

/-- R230, R231: where the host's next action is the reset input and no waiting word can be accepted, the step gives the
reset state, queued output and waiting words gone; only what the host does afterwards stays. When the host acts, and that its
list of actions stays, is the model's choice (log entries 3 and 4). -/
def Obligations.ResetInputDiscardsEverything : Prop :=
  ∀ (s : State) (rest : List HostAction), acceptNext s = none → s.host = .reset :: rest →
    step s = .next { State.reset with host := rest }

/-- R33: the fields of STATUS, the codes of `STATE`, and the reserved bits reading 0. -/
def Obligations.StatusWordFields : Prop :=
  ∀ s : State,
    s.statusWord.extractLsb' 0 3 = s.state.code ∧ s.statusWord.extractLsb' 3 1 = 0#1 ∧
    s.statusWord.extractLsb' 4 4 = s.err.code ∧ s.statusWord.extractLsb' 8 4 = s.cs ∧
    s.statusWord.extractLsb' 12 4 = s.mcs ∧ s.statusWord.extractLsb' 16 12 = s.nc.extractLsb' 0 12 ∧
    s.statusWord.extractLsb' 28 4 = 0#4 ∧
    (s.nc.toNat ≤ 4095 → s.statusWord.toNat = s.state.code.toNat + s.err.code.toNat * 2 ^ 4 + s.cs.toNat * 2 ^ 8 +
      s.mcs.toNat * 2 ^ 12 + s.nc.toNat * 2 ^ 16) ∧
    [Ctl.idle, .armed, .scanning, .done, .fault].map Ctl.code = [0, 1, 2, 3, 4] ∧
    [Err.noError, .empty, .index, .colorRange, .sequence, .illegal].map Err.code = [0, 1, 2, 3, 4, 5]

/-- R159: reading STATUS returns the word built from the current registers and changes no register and no port. The log of the
words read is the model's own (log entry 5). -/
def Obligations.StatusReadChangesNothing : Prop :=
  ∀ (s : State) (rest : List HostAction), acceptNext s = none → s.host = .readStatus :: rest →
    step s = .next { s with host := rest, statusLog := s.statusLog ++ [s.statusWord] }

/-! ### START -/

/-- START's effect (R142): legal in IDLE and DONE with a color count in range, it opens a job, appends nothing and keeps
every other register. -/
def Obligations.StartOpensJob : Prop :=
  ∀ (s : State) (cc : BitVec 16), s.state = .idle ∨ s.state = .done → max cc.toNat 4 ≤ 256 →
    exec (.start cc) s = .next
      { s with
        c := BitVec.ofNat 9 (max cc.toNat 4)
        mcs := BitVec.ofNat 4 (bitlen (max cc.toNat 4 - 1))
        cs := BitVec.ofNat 4 (bitlen (max cc.toNat 4 - 1) + 1)
        dict := literals (max cc.toNat 4)
        nc := BitVec.ofNat 13 (max cc.toNat 4 + 2)
        w := 0, acc := 0, nb := 0, buf := [], state := .armed }

/-- R142's other cases: `ERR_SEQUENCE` in ARMED or SCANNING, `ERR_COLOR_RANGE` above 256 colors, ignored in FAULT. -/
def Obligations.StartRaisesOrIsIgnored : Prop :=
  ∀ (s : State) (cc : BitVec 16),
    (s.state = .armed ∨ s.state = .scanning →
      exec (.start cc) s = .next { s with err := .sequence, state := .fault }) ∧
    (s.state = .idle ∨ s.state = .done → 256 < max cc.toNat 4 →
      exec (.start cc) s = .next { s with err := .colorRange, state := .fault }) ∧
    (s.state = .fault → exec (.start cc) s = .next s)

/-- R143: after a START the color count is at least 4 and `MCS` is the smallest width that can represent `C - 1`, as the
table lists it. -/
def Obligations.MinCodeSizeIsLeastWidth : Prop :=
  ∀ (s t : State) (cc : BitVec 16), s.state = .idle ∨ s.state = .done → max cc.toNat 4 ≤ 256 →
    exec (.start cc) s = .next t →
    t.c.toNat = max cc.toNat 4 ∧ t.mcs.toNat = bitlen (t.c.toNat - 1) ∧ t.c.toNat - 1 < 2 ^ t.mcs.toNat ∧
    (∀ m, t.c.toNat - 1 < 2 ^ m → t.mcs.toNat ≤ m) ∧
    (t.c.toNat = 4 → t.mcs = 2) ∧ (5 ≤ t.c.toNat → t.c.toNat ≤ 8 → t.mcs = 3) ∧
    (9 ≤ t.c.toNat → t.c.toNat ≤ 16 → t.mcs = 4) ∧ (17 ≤ t.c.toNat → t.c.toNat ≤ 32 → t.mcs = 5) ∧
    (33 ≤ t.c.toNat → t.c.toNat ≤ 64 → t.mcs = 6) ∧ (65 ≤ t.c.toNat → t.c.toNat ≤ 128 → t.mcs = 7) ∧
    (129 ≤ t.c.toNat → t.c.toNat ≤ 256 → t.mcs = 8)

/-- R163: START rebuilds every register a job reads, so what a list of commands after it appends, and the status it ends
with, do not depend on the state it began in, where `ERR` and the legality of START are the same. -/
def Obligations.JobDoesNotSeeEarlierJobs : Prop :=
  ∀ (s1 s2 t1 : State) (cc : BitVec 16) (is : List Instr),
    s1.state = .idle ∨ s1.state = .done → s2.state = .idle ∨ s2.state = .done → s1.err = s2.err →
    max cc.toNat 4 ≤ 256 → Reference.execAll (.start cc :: is) s1 = .next t1 →
    ∃ (t2 : State) (new : List OutWord), Reference.execAll (.start cc :: is) s2 = .next t2 ∧
      t1.outQueue = s1.outQueue ++ new ∧ t2.outQueue = s2.outQueue ++ new ∧ t1.statusWord = t2.statusWord ∧
      pendingBits t1 = pendingBits t2

/-! ### PUSH -/

/-- R146: the first PUSH of a job appends the byte `MCS` to `OUT`, writes Clear at the width `MCS + 1`, makes the index's
literal the pending sequence, and keeps everything else. -/
def Obligations.FirstPushEmitsSizeAndClear : Prop :=
  ∀ (s : State) (i : Byte), Inv s → s.state = .armed → i.toNat < s.c.toNat →
    ∃ t, exec (.push i) s = .next t ∧
      t.outQueue = s.outQueue ++ [{ byte := BitVec.ofNat 8 s.mcs.toNat, last := false }] ∧
      pendingBits t = Reference.codeBits s.c.toNat (s.mcs.toNat + 1) ∧ t.acc.toNat < 2 ^ t.nb.toNat ∧
      t.w.toNat = i.toNat ∧ t.state = .scanning ∧
      t = { s with
        outQueue := t.outQueue, acc := t.acc, nb := t.nb, buf := t.buf, w := t.w, state := t.state }

/-- R147, R148: a PUSH in SCANNING whose extended sequence `P ++ [i]` is in the dictionary makes it the pending sequence
and does nothing else. -/
def Obligations.MatchingPushOnlyMovesW : Prop :=
  ∀ (s : State) (i : Byte) (p : List Byte) (k : Code), s.state = .scanning → i.toNat < s.c.toNat →
    dictLookup s.dict p = some s.w → dictLookup s.dict (p ++ [i]) = some k →
    exec (.push i) s = .next { s with w := k }

/-- R149 to R153, the registers: a PUSH in SCANNING whose `P ++ [i]` is not in the dictionary inserts it under `k = NC`,
then either resets at the ceiling, or grows the width when `k = 2^CS`, or neither. What it keeps is the frame. -/
def Obligations.MismatchingPushRegisters : Prop :=
  ∀ (s : State) (i : Byte) (p : List Byte), s.state = .scanning → i.toNat < s.c.toNat →
    dictLookup s.dict p = some s.w → dictLookup s.dict (p ++ [i]) = none → s.nc.toNat ≤ 4095 →
    ∃ t, exec (.push i) s = .next t ∧ t.w.toNat = i.toNat ∧
      (s.nc.toNat = 4095 → t.dict = literals s.c.toNat ∧ t.nc.toNat = s.c.toNat + 2 ∧ t.cs = s.mcs + 1) ∧
      (s.nc.toNat ≠ 4095 →
        t.dict = s.dict ++ [{ pre := some s.w, suffix := i, code := BitVec.ofNat 12 s.nc.toNat }] ∧
        t.nc.toNat = s.nc.toNat + 1 ∧ t.cs = if s.nc.toNat = 2 ^ s.cs.toNat then s.cs + 1 else s.cs) ∧
      t = { s with
        w := t.w, dict := t.dict, nc := t.nc, cs := t.cs, acc := t.acc, nb := t.nb, buf := t.buf,
        outQueue := t.outQueue }

/-- R151, R152: what a mismatching PUSH writes: the code `W` at the `CS` it started with, and at the ceiling the Clear code
at that same `CS`; whole 255-byte sub-blocks leave the packer for `OUT`, nothing is lost. -/
def Obligations.MismatchingPushWritesCodes : Prop :=
  ∀ (s : State) (i : Byte) (p : List Byte), s.acc.toNat < 2 ^ s.nb.toNat → s.state = .scanning →
    i.toNat < s.c.toNat → dictLookup s.dict p = some s.w → dictLookup s.dict (p ++ [i]) = none →
    ∃ (t : State) (blocks : List (List Byte)), exec (.push i) s = .next t ∧ (∀ b ∈ blocks, b.length = 255) ∧
      t.outQueue = s.outQueue ++ blocks.flatMap subBlock ∧ t.buf.length < 255 ∧
      blocks.flatten.flatMap (fun b => Reference.codeBits b.toNat 8) ++ pendingBits t =
        pendingBits s ++ Reference.codeBits s.w.toNat s.cs.toNat ++
          (if s.nc.toNat = 4095 then Reference.codeBits s.c.toNat s.cs.toNat else [])

/-- R145, R144's faults: an index that is not less than `C` raises `ERR_INDEX` before any other effect, a PUSH in IDLE or
DONE raises `ERR_SEQUENCE`, in FAULT it is ignored. -/
def Obligations.PushRaisesOrIsIgnored : Prop :=
  ∀ (s : State) (i : Byte),
    (s.state = .armed ∨ s.state = .scanning → s.c.toNat ≤ i.toNat →
      exec (.push i) s = .next { s with err := .index, state := .fault }) ∧
    (s.state = .idle ∨ s.state = .done →
      exec (.push i) s = .next { s with err := .sequence, state := .fault }) ∧
    (s.state = .fault → exec (.push i) s = .next s)

/-- R207: an index below `C` never faults, the ceiling included: in a state between commands every such PUSH completes and
the block scans on. -/
def Obligations.IndexInRangeNeverFaults : Prop :=
  ∀ (s : State) (i : Byte), s.state = .armed ∨ s.state = .scanning → i.toNat < s.c.toNat →
    ∃ t, exec (.push i) s = .next t ∧ t.state = .scanning ∧ t.err = s.err

/-! ### END -/

/-- R155: END in SCANNING writes the final code and EOI at the width `CS`, completes the last byte with 0 bits, frames all
that is left, ends with 0x00 and `last = 1`, and leaves `C`, `MCS`, `CS`, `NC`, `W`, `D` and all else as they were. -/
def Obligations.EndWritesLastCodesAndTerminator : Prop :=
  ∀ s : State, s.acc.toNat < 2 ^ s.nb.toNat → s.state = .scanning →
    exec .endStream s = .next
      { s with
        acc := 0, nb := 0, buf := [], state := .done
        outQueue := s.outQueue ++
          plainWords (Reference.frame (Reference.packBits (pendingBits s ++
            Reference.codeBits s.w.toNat s.cs.toNat ++ Reference.codeBits (s.c.toNat + 1) s.cs.toNat))) ++
          [{ byte := 0x00#8, last := true }] }

/-- R156, R157: END in ARMED raises `ERR_EMPTY`, in IDLE or DONE `ERR_SEQUENCE`, and appends nothing; in FAULT it is
ignored. -/
def Obligations.EndRaisesOrIsIgnored : Prop :=
  ∀ s : State,
    (s.state = .armed → exec .endStream s = .next { s with err := .empty, state := .fault }) ∧
    (s.state = .idle ∨ s.state = .done → exec .endStream s = .next { s with err := .sequence, state := .fault }) ∧
    (s.state = .fault → exec .endStream s = .next s)

/-! ### Faults -/

/-- R200: a command that raises a fault changes `ERR` and `STATE` and nothing else, and appends nothing. -/
def Obligations.FaultChangesOnlyErrAndState : Prop :=
  ∀ (word : CmdWord) (s t : State), runWord word s = .next t → s.state ≠ .fault → t.state = .fault →
    t.err ≠ .noError ∧ t = { s with err := t.err, state := .fault }

/-- R158: the state-transition table, for every word and state. -/
def Obligations.StateTransitionTable : Prop :=
  ∀ (word : CmdWord) (s : State), ∃ t, runWord word s = .next t ∧ t.state = (transition (decode word) s).1 ∧
    t.err = ((transition (decode word) s).2).getD s.err

/-- R211: in FAULT every waiting word is consumed and changes nothing. The premise on the queue is the model's (log entry 2)
and is kept by every step (EveryStepKeepsLegalValues). -/
def Obligations.FaultIgnoresEveryWord : Prop :=
  ∀ (s : State) (word : CmdWord) (rest : List CmdWord), s.state = .fault →
    s.outQueue.length ≤ Config.outQueueDepth → s.cmds = word :: rest → step s = .next { s with cmds := rest }

/-- R209: FAULT and its `ERR` are left only by reset, whatever words are waiting. -/
def Obligations.OnlyResetLeavesFault : Prop :=
  ∀ s t : State, s.state = .fault → step s = .next t →
    (t.state = .fault ∧ t.err = s.err) ∨ (∃ rest, s.host = .reset :: rest ∧ t = { State.reset with host := rest })

/-! ### Bit Packer -/

/-- R100: WriteBits appends the low `w` bits of `v`, bit 0 first, to the bit stream; completed bytes are kept; on exit fewer
than 8 bits are pending and `ACC < 2^NB`; it writes `ACC`, `NB` and `BUF` only. -/
def Obligations.WriteBitsAppendsLowBits : Prop :=
  ∀ (v w : Nat) (s : State), s.acc.toNat < 2 ^ s.nb.toNat →
    pendingBits (writeBits v w s) = pendingBits s ++ Reference.codeBits v w ∧
    s.buf <+: (writeBits v w s).buf ∧ (writeBits v w s).buf.length = s.buf.length + (s.nb.toNat + w) / 8 ∧
    (writeBits v w s).nb.toNat ≤ 7 ∧ (writeBits v w s).acc.toNat < 2 ^ (writeBits v w s).nb.toNat ∧
    writeBits v w s = { s with
      acc := (writeBits v w s).acc, nb := (writeBits v w s).nb, buf := (writeBits v w s).buf }

/-- R101: Flush completes the last partial byte with 0 bits, appends at most one byte, none where no bit is pending, and
leaves `ACC = 0` and `NB = 0`. -/
def Obligations.FlushCompletesLastByte : Prop :=
  ∀ s : State, s.acc.toNat < 2 ^ s.nb.toNat →
    (flush s).buf = s.buf ++ Reference.packBits (Reference.codeBits s.acc.toNat s.nb.toNat) ∧
    (flush s).buf.length = s.buf.length + (if s.nb.toNat = 0 then 0 else 1) ∧
    flush s = { s with acc := 0, nb := 0, buf := (flush s).buf }

/-! ### Sequence Dictionary -/

/-- R120: after DictReset exactly the one-index sequences below `C` are in the dictionary, with their index as code, and
`NC` is `C + 2`; it writes `D` and `NC` only. -/
def Obligations.DictResetLeavesOnlyLiterals : Prop :=
  ∀ (s : State) (c : BitVec 9) (q : List Byte), c.toNat ≤ 256 →
    (dictReset c s).nc.toNat = c.toNat + 2 ∧
    dictReset c s = { s with dict := (dictReset c s).dict, nc := (dictReset c s).nc } ∧
    dictLookup (dictReset c s).dict q =
      match q with
      | [j] => if j.toNat < c.toNat then some (BitVec.ofNat 12 j.toNat) else none
      | _ => none

/-- R123: the table form and the whole-sequence form give the same answer: `P ++ [i]` is found exactly where the key
`(D(P), i)` is. -/
def Obligations.TableKeyAgreesWithSequence : Prop :=
  ∀ (d : List DictEntry) (p : List Byte) (w : Code) (i : Byte), dictLookup d p = some w →
    dictLookup d (p ++ [i]) = dictFind d (some w) i

/-- R122: DictInsert of a sequence that is not there adds it under the next unused code, changes no other lookup, and writes
`D` only. -/
def Obligations.DictInsertAddsOneSequence : Prop :=
  ∀ (s : State) (p : List Byte) (i : Byte), JobOk s → dictLookup s.dict p = some s.w →
    dictLookup s.dict (p ++ [i]) = none →
    let t := dictInsert s.w i (s.nc.setWidth 12) s
    (∀ q, dictLookup t.dict q =
      if q = p ++ [i] then some (BitVec.ofNat 12 s.nc.toNat) else dictLookup s.dict q) ∧ t = { s with dict := t.dict }

/-- R26: between the commands of a job the dictionary maps distinct sequences to distinct codes, its codes are those of the
literals and `C + 2 .. NC - 1`, none for Clear or EOI, and every other sequence extends one that is in it by a byte and
has the larger code. -/
def Obligations.DictionaryMapsSequencesOneToOne : Prop :=
  ∀ s : State, JobOk s →
    (∀ q1 q2 k, dictLookup s.dict q1 = some k → dictLookup s.dict q2 = some k → q1 = q2) ∧
    (∀ k : Code, (∃ q, dictLookup s.dict q = some k) ↔
      k.toNat < s.c.toNat ∨ (s.c.toNat + 2 ≤ k.toNat ∧ k.toNat < s.nc.toNat)) ∧
    (∀ j : Byte, j.toNat < s.c.toNat → dictLookup s.dict [j] = some (BitVec.ofNat 12 j.toNat)) ∧
    (∀ q k, dictLookup s.dict q = some k → s.c.toNat ≤ k.toNat →
      ∃ q' i k', q = q' ++ [i] ∧ dictLookup s.dict q' = some k' ∧ k'.toNat < k.toNat)

/-- R124: after a step that leaves a job open or finished `NC ≤ 4095`, and the dictionary holds at most `4096 - C - 2` entries
that are no literals, each with a code from `C + 2` to `NC - 1`. The code a mismatching PUSH inserts under is `NC` itself,
untruncated; codes go up by one, and the PUSH that allocates 4095 resets the dictionary. -/
def Obligations.DictionaryCapacity : Prop :=
  (∀ s t : State, Inv s → step s = .next t → InJob t →
    t.nc.toNat ≤ 4095 ∧ t.dict.length ≤ t.c.toNat + (4096 - t.c.toNat - 2) ∧
    ∀ e ∈ t.dict.drop t.c.toNat, t.c.toNat + 2 ≤ e.code.toNat ∧ e.code.toNat < t.nc.toNat) ∧
  (∀ (s : State) (i : Byte) (p : List Byte), Inv s → s.state = .scanning → i.toNat < s.c.toNat →
    dictLookup s.dict p = some s.w → dictLookup s.dict (p ++ [i]) = none →
    (dictLookup (dictInsert s.w i (s.nc.setWidth 12) s).dict (p ++ [i])).map BitVec.toNat = some s.nc.toNat ∧
    ∃ t, exec (.push i) s = .next t ∧
      (s.nc.toNat = 4095 → t.dict = literals s.c.toNat ∧ t.nc.toNat = s.c.toNat + 2) ∧
      (s.nc.toNat ≠ 4095 → (dictLookup t.dict (p ++ [i])).map BitVec.toNat = some s.nc.toNat ∧
        t.nc.toNat = s.nc.toNat + 1))

/-! ### Sub-block Emitter -/

/-- R180: Drain emits every full sub-block, oldest bytes first: a length byte 255 and exactly 255 data bytes each, until
fewer than 255 bytes remain. -/
def Obligations.DrainEmitsEveryFullSubBlock : Prop :=
  ∀ s : State, drain s =
    { s with
      buf := s.buf.drop (255 * (s.buf.length / 255))
      outQueue := s.outQueue ++ (List.range (s.buf.length / 255)).flatMap fun j =>
        plainWords (255#8 :: (s.buf.drop (255 * j)).take 255) }

/-- R181: FinalFrame frames what is left, if anything is, and ends with one zero byte with `last = 1`. -/
def Obligations.FinalFrameEndsWithTerminator : Prop :=
  ∀ s : State, s.buf.length ≤ 255 → finalFrame s =
    { s with
      buf := []
      outQueue := s.outQueue ++
        (if s.buf = [] then [] else plainWords (BitVec.ofNat 8 s.buf.length :: s.buf)) ++
        [{ byte := 0x00#8, last := true }] }

/-- R182: the framing of packed data as a function, independent of when Drain ran, and its length. Whether Drain runs once at
the end, or earlier with more bytes joining `BUF` afterwards (and then again, or not, where at most 255 bytes are left, as in
END), what is appended is the framing of all the bytes, and the terminator. -/
def Obligations.FramingDoesNotDependOnDrain : Prop :=
  (∀ s : State, (finalFrame (drain s)).outQueue =
    s.outQueue ++ plainWords (Reference.frame s.buf) ++ [{ byte := 0x00#8, last := true }]) ∧
  (∀ (s : State) (more : List Byte),
    let t : State := { drain s with buf := (drain s).buf ++ more }
    let whole := s.outQueue ++ plainWords (Reference.frame (s.buf ++ more)) ++ [{ byte := 0x00#8, last := true }]
    (finalFrame (drain t)).outQueue = whole ∧ (t.buf.length ≤ 255 → (finalFrame t).outQueue = whole)) ∧
  (∀ d : List Byte, (Reference.frame d).length + 1 =
    d.length + d.length / 255 + (if 0 < d.length % 255 then 1 else 0) + 1)

/-! ### Ports -/

/-- R54: taking a word removes the oldest one from the output queue and has no other effect; `OUT` stays as it is. That the
sink's side is held as a list of the model is log entry 5. -/
def Obligations.TakeMovesOldestWord : Prop :=
  ∀ (s : State) (rest : List HostAction) (o : OutWord) (queue : List OutWord), acceptNext s = none →
    s.host = .take :: rest → s.outQueue = o :: queue →
    ∃ t, step s = .next t ∧ t = { s with host := rest, outQueue := queue, taken := s.taken ++ [o] } ∧ t.out = s.out

/-- R31: no step but reset removes or changes a word of `OUT`; it only gets longer. -/
def Obligations.OutputIsOnlyAppended : Prop :=
  ∀ s t : State, step s = .next t →
    s.out <+: t.out ∨ (∃ rest, s.host = .reset :: rest ∧ t = { State.reset with host := rest })

/-- R83: an output word is the byte in bits 7:0 and the `last` flag in bit 8; `last = 1` exactly on the terminator 0x00 of a
job END finishes; every other word a command appends has `last = 0`. -/
def Obligations.LastFlagOnlyOnTerminator : Prop :=
  (∀ o : OutWord, o.portWord.extractLsb' 0 8 = o.byte ∧ (o.portWord.extractLsb' 8 1 = 1#1 ↔ o.last = true)) ∧
  ∀ (i : Instr) (s : State), ∃ (t : State) (new : List OutWord), exec i s = .next t ∧
    t.outQueue = s.outQueue ++ new ∧
    (i = .endStream → s.state = .scanning →
      ∃ data, new = plainWords data ++ [{ byte := 0x00#8, last := true }]) ∧
    (i ≠ .endStream ∨ s.state ≠ .scanning → ∀ o ∈ new, o.last = false)

/-- R236: the bytes each command appends, in a state between commands: START none, the first PUSH of a job one, a later one
0 or 256, END at most 513, a command that faults or is ignored none. -/
def Obligations.WorstCaseOutputPerCommand : Prop :=
  ∀ (i : Instr) (s : State), Inv s → ∃ (t : State) (new : List OutWord), exec i s = .next t ∧
    t.outQueue = s.outQueue ++ new ∧
    (∀ cc, i = .start cc → new = []) ∧
    (∀ b, i = .push b → s.state = .armed → b.toNat < s.c.toNat → new.length = 1) ∧
    (∀ b, i = .push b → s.state = .scanning → b.toNat < s.c.toNat → new.length = 0 ∨ new.length = 256) ∧
    (i = .endStream → new.length ≤ 513) ∧
    (t.state = .fault → new = [])

/-- R234: a word the queue has no room for waits: nothing is dropped, reordered or changed, and only the host can act; with
a host that does nothing the state stays as it is, for ever. The room asked for is the model's choice (log entry 2). -/
def Obligations.StallKeepsEverything : Prop :=
  ∀ (s : State) (word : CmdWord) (rest : List CmdWord), s.cmds = word :: rest →
    Config.outQueueDepth < s.outQueue.length + mayProduce word s →
    step s = .next (hostNext s) ∧ (s.host = [] → step s = .next s) ∧
    (∀ more, s.host = .take :: more → (hostNext s).cmds = s.cmds ∧ (hostNext s).out = s.out)

/-- R234, R236: once the host has taken every byte, a waiting word is accepted, whatever it is (the depth is at least the
worst case of R236: log entry 1). -/
def Obligations.DrainedQueueAcceptsNextWord : Prop :=
  ∀ (s : State) (word : CmdWord) (rest : List CmdWord), s.outQueue = [] → s.cmds = word :: rest →
    step s = runWord word { s with cmds := rest }

/-- A step runs the decoded command (R54, R141): where the oldest waiting word can be accepted, it is consumed once and the
step is `exec` of its command; the host's next action is performed only where no word can be accepted (log entries 2 and 3). -/
def Obligations.StepRunsTheDecodedCommand : Prop :=
  (∀ (s : State) (word : CmdWord) (rest : List CmdWord) (i : Instr), s.cmds = word :: rest →
    s.outQueue.length + mayProduce word s ≤ Config.outQueueDepth → decode word = .instr i →
    step s = exec i { s with cmds := rest }) ∧
  (∀ s : State, acceptNext s = none → step s = .next (hostNext s)) ∧
  (∀ (s : State) (word : CmdWord) (rest : List HostAction), acceptNext s = none → s.host = .write word :: rest →
    step s = .next { s with host := rest, cmds := s.cmds ++ [word] })

/-- R140, R21: what each command leaves alone when it completes without a fault. -/
def Obligations.CommandFrames : Prop :=
  ∀ (i : Instr) (s t : State), exec i s = .next t → t.state ≠ .fault →
    (t.err = s.err ∧ t.cmds = s.cmds ∧ t.host = s.host ∧ t.taken = s.taken ∧ t.statusLog = s.statusLog) ∧
    (∀ cc, i = .start cc → t.outQueue = s.outQueue) ∧
    (∀ b, i = .push b → t.c = s.c ∧ t.mcs = s.mcs) ∧
    (∀ b, i = .push b → s.state = .armed → t.dict = s.dict ∧ t.nc = s.nc ∧ t.cs = s.cs) ∧
    (i = .endStream → t.c = s.c ∧ t.mcs = s.mcs ∧ t.cs = s.cs ∧ t.nc = s.nc ∧ t.w = s.w ∧ t.dict = s.dict)

/-! ### Invariants -/

/-- The reset state has the legal values of R21. -/
def Obligations.ResetHasLegalValues : Prop := Inv State.reset

/-- R21, R26, R28, R29, R30: every step keeps the legal values between commands, and the output queue never holds more
than `OUT_QUEUE_DEPTH` words (the latter from the model's choice in log entry 2). -/
def Obligations.EveryStepKeepsLegalValues : Prop :=
  ∀ s t : State, Inv s → step s = .next t → Inv t

/-- R154: every code a command writes fits the width it is written with. -/
def Obligations.CodesFitTheirWidth : Prop :=
  ∀ s : State, Inv s → InJob s → s.c.toNat < 2 ^ s.cs.toNat ∧ s.c.toNat + 1 < 2 ^ s.cs.toNat ∧
    (s.state = .scanning → s.w.toNat < 2 ^ s.cs.toNat) ∧ 3 ≤ s.cs.toNat ∧ s.cs.toNat ≤ 12

/-- The reset state has the shape of `OUT`. -/
def Obligations.ResetHasOutputShape : Prop := OutOk State.reset

/-- R78, R83, R210, R235: every step keeps the shape of `OUT`: finished jobs (minimum code size byte, framed data,
terminator with the one `last = 1`), then, for a job that is open or was cut by a fault, its minimum code size byte and
whole 255-byte sub-blocks. -/
def Obligations.EveryStepKeepsOutputShape : Prop :=
  ∀ s t : State, Inv s → OutOk s → step s = .next t → OutOk t

/-! ### A job as a function -/

/-- R160: START cc, one PUSH per index, END, from IDLE or DONE: `OUT` grows by the minimum code size, the framed packed
codes and the terminator, as the reference function computes them from the color count and the indices alone; `STATE` ends
DONE and `ERR` is kept. -/
def Obligations.JobOutputIsReferenceFunction : Prop :=
  ∀ (s : State) (cc : BitVec 16) (x0 : Byte) (xs : List Byte), s.state = .idle ∨ s.state = .done →
    max cc.toNat 4 ≤ 256 → (∀ x ∈ x0 :: xs, x.toNat < max cc.toNat 4) →
    ∃ t, Reference.execAll (.start cc :: (x0 :: xs).map .push ++ [.endStream]) s = .next t ∧
      t.out = s.out ++ Reference.jobOutput (max cc.toNat 4) x0 xs ∧ t.state = .done ∧ t.err = s.err

/-- R183: the packed data of every job has at least 2 bytes, so at least one sub-block is emitted. -/
def Obligations.EverySuccessfulJobHasTwoDataBytes : Prop :=
  ∀ (c : Nat) (x0 : Byte) (xs : List Byte), 4 ≤ c →
    let data := Reference.packBits (Reference.bitStream (Reference.jobCodes c x0 xs))
    2 ≤ data.length ∧ data.length < (Reference.frame data).length
end

