-- ==== Sys2Proof/Laws/State.lean ====
section
/-! SUPPORT. Each shared operation, field by field: what it writes and what it keeps, each true by unfolding once. -/

namespace Sys2Proof.Machine

/-! ### raiseFault -/

@[simp] theorem raiseFault_state (e : Err) (s : State) : (raiseFault e s).state = .fault := rfl
@[simp] theorem raiseFault_err (e : Err) (s : State) : (raiseFault e s).err = e := rfl
@[simp] theorem raiseFault_c (e : Err) (s : State) : (raiseFault e s).c = s.c := rfl
@[simp] theorem raiseFault_mcs (e : Err) (s : State) : (raiseFault e s).mcs = s.mcs := rfl
@[simp] theorem raiseFault_cs (e : Err) (s : State) : (raiseFault e s).cs = s.cs := rfl
@[simp] theorem raiseFault_nc (e : Err) (s : State) : (raiseFault e s).nc = s.nc := rfl
@[simp] theorem raiseFault_w (e : Err) (s : State) : (raiseFault e s).w = s.w := rfl
@[simp] theorem raiseFault_dict (e : Err) (s : State) : (raiseFault e s).dict = s.dict := rfl
@[simp] theorem raiseFault_acc (e : Err) (s : State) : (raiseFault e s).acc = s.acc := rfl
@[simp] theorem raiseFault_nb (e : Err) (s : State) : (raiseFault e s).nb = s.nb := rfl
@[simp] theorem raiseFault_buf (e : Err) (s : State) : (raiseFault e s).buf = s.buf := rfl
@[simp] theorem raiseFault_outQueue (e : Err) (s : State) : (raiseFault e s).outQueue = s.outQueue := rfl
@[simp] theorem raiseFault_taken (e : Err) (s : State) : (raiseFault e s).taken = s.taken := rfl
@[simp] theorem raiseFault_cmds (e : Err) (s : State) : (raiseFault e s).cmds = s.cmds := rfl
@[simp] theorem raiseFault_host (e : Err) (s : State) : (raiseFault e s).host = s.host := rfl
@[simp] theorem raiseFault_statusLog (e : Err) (s : State) : (raiseFault e s).statusLog = s.statusLog := rfl

/-! ### outAppend -/

@[simp] theorem outAppend_state (b : Byte) (last : Bool) (s : State) : (outAppend b last s).state = s.state := rfl
@[simp] theorem outAppend_err (b : Byte) (last : Bool) (s : State) : (outAppend b last s).err = s.err := rfl
@[simp] theorem outAppend_c (b : Byte) (last : Bool) (s : State) : (outAppend b last s).c = s.c := rfl
@[simp] theorem outAppend_mcs (b : Byte) (last : Bool) (s : State) : (outAppend b last s).mcs = s.mcs := rfl
@[simp] theorem outAppend_cs (b : Byte) (last : Bool) (s : State) : (outAppend b last s).cs = s.cs := rfl
@[simp] theorem outAppend_nc (b : Byte) (last : Bool) (s : State) : (outAppend b last s).nc = s.nc := rfl
@[simp] theorem outAppend_w (b : Byte) (last : Bool) (s : State) : (outAppend b last s).w = s.w := rfl
@[simp] theorem outAppend_dict (b : Byte) (last : Bool) (s : State) : (outAppend b last s).dict = s.dict := rfl
@[simp] theorem outAppend_acc (b : Byte) (last : Bool) (s : State) : (outAppend b last s).acc = s.acc := rfl
@[simp] theorem outAppend_nb (b : Byte) (last : Bool) (s : State) : (outAppend b last s).nb = s.nb := rfl
@[simp] theorem outAppend_buf (b : Byte) (last : Bool) (s : State) : (outAppend b last s).buf = s.buf := rfl
@[simp] theorem outAppend_outQueue (b : Byte) (last : Bool) (s : State) : (outAppend b last s).outQueue = s.outQueue ++ [{ byte := b, last := last }] := rfl
@[simp] theorem outAppend_taken (b : Byte) (last : Bool) (s : State) : (outAppend b last s).taken = s.taken := rfl
@[simp] theorem outAppend_cmds (b : Byte) (last : Bool) (s : State) : (outAppend b last s).cmds = s.cmds := rfl
@[simp] theorem outAppend_host (b : Byte) (last : Bool) (s : State) : (outAppend b last s).host = s.host := rfl
@[simp] theorem outAppend_statusLog (b : Byte) (last : Bool) (s : State) : (outAppend b last s).statusLog = s.statusLog := rfl

/-! ### drain -/

@[simp] theorem drain_state (s : State) : (drain s).state = s.state := rfl
@[simp] theorem drain_err (s : State) : (drain s).err = s.err := rfl
@[simp] theorem drain_c (s : State) : (drain s).c = s.c := rfl
@[simp] theorem drain_mcs (s : State) : (drain s).mcs = s.mcs := rfl
@[simp] theorem drain_cs (s : State) : (drain s).cs = s.cs := rfl
@[simp] theorem drain_nc (s : State) : (drain s).nc = s.nc := rfl
@[simp] theorem drain_w (s : State) : (drain s).w = s.w := rfl
@[simp] theorem drain_dict (s : State) : (drain s).dict = s.dict := rfl
@[simp] theorem drain_acc (s : State) : (drain s).acc = s.acc := rfl
@[simp] theorem drain_nb (s : State) : (drain s).nb = s.nb := rfl
@[simp] theorem drain_taken (s : State) : (drain s).taken = s.taken := rfl
@[simp] theorem drain_cmds (s : State) : (drain s).cmds = s.cmds := rfl
@[simp] theorem drain_host (s : State) : (drain s).host = s.host := rfl
@[simp] theorem drain_statusLog (s : State) : (drain s).statusLog = s.statusLog := rfl

/-! ### finalFrame -/

@[simp] theorem finalFrame_state (s : State) : (finalFrame s).state = s.state := rfl
@[simp] theorem finalFrame_err (s : State) : (finalFrame s).err = s.err := rfl
@[simp] theorem finalFrame_c (s : State) : (finalFrame s).c = s.c := rfl
@[simp] theorem finalFrame_mcs (s : State) : (finalFrame s).mcs = s.mcs := rfl
@[simp] theorem finalFrame_cs (s : State) : (finalFrame s).cs = s.cs := rfl
@[simp] theorem finalFrame_nc (s : State) : (finalFrame s).nc = s.nc := rfl
@[simp] theorem finalFrame_w (s : State) : (finalFrame s).w = s.w := rfl
@[simp] theorem finalFrame_dict (s : State) : (finalFrame s).dict = s.dict := rfl
@[simp] theorem finalFrame_acc (s : State) : (finalFrame s).acc = s.acc := rfl
@[simp] theorem finalFrame_nb (s : State) : (finalFrame s).nb = s.nb := rfl
@[simp] theorem finalFrame_buf (s : State) : (finalFrame s).buf = [] := rfl
@[simp] theorem finalFrame_outQueue (s : State) : (finalFrame s).outQueue = s.outQueue ++ (if 0 < s.buf.length then subBlock s.buf else []) ++ [{ byte := 0x00#8, last := true }] := rfl
@[simp] theorem finalFrame_taken (s : State) : (finalFrame s).taken = s.taken := rfl
@[simp] theorem finalFrame_cmds (s : State) : (finalFrame s).cmds = s.cmds := rfl
@[simp] theorem finalFrame_host (s : State) : (finalFrame s).host = s.host := rfl
@[simp] theorem finalFrame_statusLog (s : State) : (finalFrame s).statusLog = s.statusLog := rfl

/-! ### writeBits -/

@[simp] theorem writeBits_state (v w : Nat) (s : State) : (writeBits v w s).state = s.state := rfl
@[simp] theorem writeBits_err (v w : Nat) (s : State) : (writeBits v w s).err = s.err := rfl
@[simp] theorem writeBits_c (v w : Nat) (s : State) : (writeBits v w s).c = s.c := rfl
@[simp] theorem writeBits_mcs (v w : Nat) (s : State) : (writeBits v w s).mcs = s.mcs := rfl
@[simp] theorem writeBits_cs (v w : Nat) (s : State) : (writeBits v w s).cs = s.cs := rfl
@[simp] theorem writeBits_nc (v w : Nat) (s : State) : (writeBits v w s).nc = s.nc := rfl
@[simp] theorem writeBits_w (v w : Nat) (s : State) : (writeBits v w s).w = s.w := rfl
@[simp] theorem writeBits_dict (v w : Nat) (s : State) : (writeBits v w s).dict = s.dict := rfl
@[simp] theorem writeBits_outQueue (v w : Nat) (s : State) : (writeBits v w s).outQueue = s.outQueue := rfl
@[simp] theorem writeBits_taken (v w : Nat) (s : State) : (writeBits v w s).taken = s.taken := rfl
@[simp] theorem writeBits_cmds (v w : Nat) (s : State) : (writeBits v w s).cmds = s.cmds := rfl
@[simp] theorem writeBits_host (v w : Nat) (s : State) : (writeBits v w s).host = s.host := rfl
@[simp] theorem writeBits_statusLog (v w : Nat) (s : State) : (writeBits v w s).statusLog = s.statusLog := rfl

/-! ### flush -/

@[simp] theorem flush_state (s : State) : (flush s).state = s.state := rfl
@[simp] theorem flush_err (s : State) : (flush s).err = s.err := rfl
@[simp] theorem flush_c (s : State) : (flush s).c = s.c := rfl
@[simp] theorem flush_mcs (s : State) : (flush s).mcs = s.mcs := rfl
@[simp] theorem flush_cs (s : State) : (flush s).cs = s.cs := rfl
@[simp] theorem flush_nc (s : State) : (flush s).nc = s.nc := rfl
@[simp] theorem flush_w (s : State) : (flush s).w = s.w := rfl
@[simp] theorem flush_dict (s : State) : (flush s).dict = s.dict := rfl
@[simp] theorem flush_acc (s : State) : (flush s).acc = 0 := rfl
@[simp] theorem flush_nb (s : State) : (flush s).nb = 0 := rfl
@[simp] theorem flush_buf (s : State) : (flush s).buf = if 0 < s.nb.toNat then s.buf ++ [s.acc] else s.buf := rfl
@[simp] theorem flush_outQueue (s : State) : (flush s).outQueue = s.outQueue := rfl
@[simp] theorem flush_taken (s : State) : (flush s).taken = s.taken := rfl
@[simp] theorem flush_cmds (s : State) : (flush s).cmds = s.cmds := rfl
@[simp] theorem flush_host (s : State) : (flush s).host = s.host := rfl
@[simp] theorem flush_statusLog (s : State) : (flush s).statusLog = s.statusLog := rfl

/-! ### clearPacker -/

@[simp] theorem clearPacker_state (s : State) : (clearPacker s).state = s.state := rfl
@[simp] theorem clearPacker_err (s : State) : (clearPacker s).err = s.err := rfl
@[simp] theorem clearPacker_c (s : State) : (clearPacker s).c = s.c := rfl
@[simp] theorem clearPacker_mcs (s : State) : (clearPacker s).mcs = s.mcs := rfl
@[simp] theorem clearPacker_cs (s : State) : (clearPacker s).cs = s.cs := rfl
@[simp] theorem clearPacker_nc (s : State) : (clearPacker s).nc = s.nc := rfl
@[simp] theorem clearPacker_w (s : State) : (clearPacker s).w = s.w := rfl
@[simp] theorem clearPacker_dict (s : State) : (clearPacker s).dict = s.dict := rfl
@[simp] theorem clearPacker_acc (s : State) : (clearPacker s).acc = 0 := rfl
@[simp] theorem clearPacker_nb (s : State) : (clearPacker s).nb = 0 := rfl
@[simp] theorem clearPacker_buf (s : State) : (clearPacker s).buf = [] := rfl
@[simp] theorem clearPacker_outQueue (s : State) : (clearPacker s).outQueue = s.outQueue := rfl
@[simp] theorem clearPacker_taken (s : State) : (clearPacker s).taken = s.taken := rfl
@[simp] theorem clearPacker_cmds (s : State) : (clearPacker s).cmds = s.cmds := rfl
@[simp] theorem clearPacker_host (s : State) : (clearPacker s).host = s.host := rfl
@[simp] theorem clearPacker_statusLog (s : State) : (clearPacker s).statusLog = s.statusLog := rfl

/-! ### writeCode -/

@[simp] theorem writeCode_state (v : Nat) (s : State) : (writeCode v s).state = s.state := rfl
@[simp] theorem writeCode_err (v : Nat) (s : State) : (writeCode v s).err = s.err := rfl
@[simp] theorem writeCode_c (v : Nat) (s : State) : (writeCode v s).c = s.c := rfl
@[simp] theorem writeCode_mcs (v : Nat) (s : State) : (writeCode v s).mcs = s.mcs := rfl
@[simp] theorem writeCode_cs (v : Nat) (s : State) : (writeCode v s).cs = s.cs := rfl
@[simp] theorem writeCode_nc (v : Nat) (s : State) : (writeCode v s).nc = s.nc := rfl
@[simp] theorem writeCode_w (v : Nat) (s : State) : (writeCode v s).w = s.w := rfl
@[simp] theorem writeCode_dict (v : Nat) (s : State) : (writeCode v s).dict = s.dict := rfl
@[simp] theorem writeCode_acc (v : Nat) (s : State) : (writeCode v s).acc = (writeBits v s.cs.toNat s).acc := rfl
@[simp] theorem writeCode_nb (v : Nat) (s : State) : (writeCode v s).nb = (writeBits v s.cs.toNat s).nb := rfl
@[simp] theorem writeCode_taken (v : Nat) (s : State) : (writeCode v s).taken = s.taken := rfl
@[simp] theorem writeCode_cmds (v : Nat) (s : State) : (writeCode v s).cmds = s.cmds := rfl
@[simp] theorem writeCode_host (v : Nat) (s : State) : (writeCode v s).host = s.host := rfl
@[simp] theorem writeCode_statusLog (v : Nat) (s : State) : (writeCode v s).statusLog = s.statusLog := rfl

/-! ### dictReset -/

@[simp] theorem dictReset_state (c : BitVec 9) (s : State) : (dictReset c s).state = s.state := rfl
@[simp] theorem dictReset_err (c : BitVec 9) (s : State) : (dictReset c s).err = s.err := rfl
@[simp] theorem dictReset_c (c : BitVec 9) (s : State) : (dictReset c s).c = s.c := rfl
@[simp] theorem dictReset_mcs (c : BitVec 9) (s : State) : (dictReset c s).mcs = s.mcs := rfl
@[simp] theorem dictReset_cs (c : BitVec 9) (s : State) : (dictReset c s).cs = s.cs := rfl
@[simp] theorem dictReset_nc (c : BitVec 9) (s : State) : (dictReset c s).nc = BitVec.ofNat 13 (c.toNat + 2) := rfl
@[simp] theorem dictReset_w (c : BitVec 9) (s : State) : (dictReset c s).w = s.w := rfl
@[simp] theorem dictReset_dict (c : BitVec 9) (s : State) : (dictReset c s).dict = literals c.toNat := rfl
@[simp] theorem dictReset_acc (c : BitVec 9) (s : State) : (dictReset c s).acc = s.acc := rfl
@[simp] theorem dictReset_nb (c : BitVec 9) (s : State) : (dictReset c s).nb = s.nb := rfl
@[simp] theorem dictReset_buf (c : BitVec 9) (s : State) : (dictReset c s).buf = s.buf := rfl
@[simp] theorem dictReset_outQueue (c : BitVec 9) (s : State) : (dictReset c s).outQueue = s.outQueue := rfl
@[simp] theorem dictReset_taken (c : BitVec 9) (s : State) : (dictReset c s).taken = s.taken := rfl
@[simp] theorem dictReset_cmds (c : BitVec 9) (s : State) : (dictReset c s).cmds = s.cmds := rfl
@[simp] theorem dictReset_host (c : BitVec 9) (s : State) : (dictReset c s).host = s.host := rfl
@[simp] theorem dictReset_statusLog (c : BitVec 9) (s : State) : (dictReset c s).statusLog = s.statusLog := rfl

/-! ### dictInsert -/

@[simp] theorem dictInsert_state (p : Code) (i : Byte) (k : Code) (s : State) : (dictInsert p i k s).state = s.state := rfl
@[simp] theorem dictInsert_err (p : Code) (i : Byte) (k : Code) (s : State) : (dictInsert p i k s).err = s.err := rfl
@[simp] theorem dictInsert_c (p : Code) (i : Byte) (k : Code) (s : State) : (dictInsert p i k s).c = s.c := rfl
@[simp] theorem dictInsert_mcs (p : Code) (i : Byte) (k : Code) (s : State) : (dictInsert p i k s).mcs = s.mcs := rfl
@[simp] theorem dictInsert_cs (p : Code) (i : Byte) (k : Code) (s : State) : (dictInsert p i k s).cs = s.cs := rfl
@[simp] theorem dictInsert_nc (p : Code) (i : Byte) (k : Code) (s : State) : (dictInsert p i k s).nc = s.nc := rfl
@[simp] theorem dictInsert_w (p : Code) (i : Byte) (k : Code) (s : State) : (dictInsert p i k s).w = s.w := rfl
@[simp] theorem dictInsert_dict (p : Code) (i : Byte) (k : Code) (s : State) : (dictInsert p i k s).dict = s.dict ++ [{ pre := some p, suffix := i, code := k }] := rfl
@[simp] theorem dictInsert_acc (p : Code) (i : Byte) (k : Code) (s : State) : (dictInsert p i k s).acc = s.acc := rfl
@[simp] theorem dictInsert_nb (p : Code) (i : Byte) (k : Code) (s : State) : (dictInsert p i k s).nb = s.nb := rfl
@[simp] theorem dictInsert_buf (p : Code) (i : Byte) (k : Code) (s : State) : (dictInsert p i k s).buf = s.buf := rfl
@[simp] theorem dictInsert_outQueue (p : Code) (i : Byte) (k : Code) (s : State) : (dictInsert p i k s).outQueue = s.outQueue := rfl
@[simp] theorem dictInsert_taken (p : Code) (i : Byte) (k : Code) (s : State) : (dictInsert p i k s).taken = s.taken := rfl
@[simp] theorem dictInsert_cmds (p : Code) (i : Byte) (k : Code) (s : State) : (dictInsert p i k s).cmds = s.cmds := rfl
@[simp] theorem dictInsert_host (p : Code) (i : Byte) (k : Code) (s : State) : (dictInsert p i k s).host = s.host := rfl
@[simp] theorem dictInsert_statusLog (p : Code) (i : Byte) (k : Code) (s : State) : (dictInsert p i k s).statusLog = s.statusLog := rfl

end Sys2Proof.Machine
end

