-- ==== Sys2Proof/Laws/Bits.lean ====
section
/-! SUPPORT. Bits of codes and bytes, and what the packer's loop does to a bit stream (spec 41_bit_packer.md R100, R104). -/

namespace Sys2Proof.Laws

open Sys2Proof.Machine Sys2Proof.Reference

/-! ### The number of bits of a value (R8), and the minimum code size (R143) -/

theorem bitlen_lt (x : Nat) : x < 2 ^ bitlen x := by
  unfold bitlen
  split
  · simp [*]
  · exact Nat.lt_log2_self

theorem bitlen_le {x m : Nat} (h : x < 2 ^ m) : bitlen x ≤ m := by
  unfold bitlen
  split
  · omega
  · rename_i h0
    exact (Nat.log2_lt h0).mpr h

theorem bitlen_mono {x y : Nat} (h : x ≤ y) : bitlen x ≤ bitlen y :=
  bitlen_le (Nat.lt_of_le_of_lt h (bitlen_lt y))

theorem bitlen_eq {x m : Nat} (h1 : 2 ^ m ≤ x) (h2 : x < 2 ^ (m + 1)) : bitlen x = m + 1 := by
  apply Nat.le_antisymm (bitlen_le h2)
  by_contra hlt
  have : x < 2 ^ m := Nat.lt_of_lt_of_le (bitlen_lt x) (Nat.pow_le_pow_right (by omega) (by omega))
  omega

theorem minCodeSize_le {c : Nat} (h : c ≤ 256) : minCodeSize c ≤ 8 := bitlen_le (by omega)

theorem minCodeSize_ge {c : Nat} (h : 4 ≤ c) : 2 ≤ minCodeSize c := by
  have h1 := bitlen_mono (show 3 ≤ c - 1 by omega)
  have h2 : bitlen 3 = 2 := by decide
  unfold minCodeSize
  omega

/-! ### Bits of codes -/

@[simp] theorem codeBits_length (v w : Nat) : (codeBits v w).length = w := by
  simp [codeBits]

@[simp] theorem codeBits_zero (v : Nat) : codeBits v 0 = [] := rfl

/-- A bit list reads bit by bit. -/
theorem codeBits_getElem (v w j : Nat) (h : j < (codeBits v w).length) :
    (codeBits v w)[j] = v.testBit j := by
  simp [codeBits]

/-- Bits at and above the width do not count. -/
theorem codeBits_congr {u v w : Nat} (h : ∀ j < w, u.testBit j = v.testBit j) :
    codeBits u w = codeBits v w := by
  refine List.ext_getElem (by simp) fun j hj _ => ?_
  rw [codeBits_getElem, codeBits_getElem]
  exact h j (by simpa using hj)

/-- The low bits of a code, then the rest of it. -/
theorem codeBits_add (v a b : Nat) : codeBits v (a + b) = codeBits v a ++ codeBits (v >>> a) b := by
  refine List.ext_getElem (by simp) fun j hj _ => ?_
  rw [codeBits_getElem, List.getElem_append]
  split
  · rw [codeBits_getElem]
  · rename_i h
    rw [codeBits_getElem, Nat.testBit_shiftRight]
    simp only [codeBits_length] at h ⊢
    congr 1
    omega

/-- A value below `2^a` shows only zeros from bit `a` on. -/
theorem codeBits_of_lt {v a : Nat} (h : v < 2 ^ a) (b : Nat) :
    codeBits v (a + b) = codeBits v a ++ List.replicate b false := by
  rw [codeBits_add, Nat.shiftRight_eq_div_pow, Nat.div_eq_of_lt h]
  congr 1
  refine List.ext_getElem (by simp) fun j hj _ => ?_
  rw [codeBits_getElem]
  simp

/-- A byte made of a number shows the number's low eight bits. -/
theorem codeBits_byte (v : Nat) : codeBits (BitVec.ofNat 8 v).toNat 8 = codeBits v 8 := by
  refine codeBits_congr fun j hj => ?_
  rw [BitVec.toNat_ofNat, Nat.testBit_mod_two_pow]
  simp [hj]

/-- The bits of completed bytes. -/
def byteBits (bytes : List Byte) : List Bool := bytes.flatMap fun b => codeBits b.toNat 8

@[simp] theorem byteBits_nil : byteBits [] = [] := rfl

@[simp] theorem byteBits_append (a b : List Byte) : byteBits (a ++ b) = byteBits a ++ byteBits b := by
  simp [byteBits]

@[simp] theorem byteBits_cons (a : Byte) (b : List Byte) :
    byteBits (a :: b) = codeBits a.toNat 8 ++ byteBits b := by
  simp [byteBits]

@[simp] theorem byteBits_length (bytes : List Byte) : (byteBits bytes).length = 8 * bytes.length := by
  induction bytes with
  | nil => rfl
  | cons a t ih => simp [ih]; omega

/-- The loop of WriteBits: the bits stay the same, whole bytes move to `BUF`, fewer than 8 bits stay pending. -/
theorem emitBytes_spec (fuel acc nb : Nat) (buf : List Byte) (hf : nb / 8 ≤ fuel) (ha : acc < 2 ^ nb) :
    ∃ more : List Byte, ∃ acc' : Nat,
      emitBytes fuel acc nb buf = (acc', nb % 8, buf ++ more) ∧ more.length = nb / 8 ∧ acc' < 2 ^ (nb % 8) ∧
        byteBits more ++ codeBits acc' (nb % 8) = codeBits acc nb := by
  induction fuel generalizing acc nb buf with
  | zero =>
    have h8 : nb < 8 := by omega
    exact ⟨[], acc, by simp [emitBytes, Nat.mod_eq_of_lt h8], by simp; omega,
      by rwa [Nat.mod_eq_of_lt h8], by simp [Nat.mod_eq_of_lt h8]⟩
  | succ f ih =>
    by_cases h8 : 8 ≤ nb
    · have hpow : (2 : Nat) ^ nb = 2 ^ (nb - 8) * 2 ^ 8 := by rw [← Nat.pow_add]; congr 1; omega
      have ha' : acc >>> 8 < 2 ^ (nb - 8) := by
        rw [Nat.shiftRight_eq_div_pow]
        exact Nat.div_lt_of_lt_mul (by rw [Nat.mul_comm, ← hpow]; exact ha)
      obtain ⟨more, acc', he, hl, hlt, hb⟩ := ih (acc >>> 8) (nb - 8) (buf ++ [BitVec.ofNat 8 acc]) (by omega) ha'
      have hm : (nb - 8) % 8 = nb % 8 := by omega
      rw [hm] at he hlt hb
      refine ⟨BitVec.ofNat 8 acc :: more, acc', ?_, ?_, hlt, ?_⟩
      · rw [emitBytes, if_pos h8, he]; simp
      · simp [hl]; omega
      · rw [byteBits_cons, codeBits_byte, List.append_assoc, hb, ← codeBits_add]
        congr 1; omega
    · have h8' : nb < 8 := by omega
      exact ⟨[], acc, by rw [emitBytes, if_neg h8]; simp [Nat.mod_eq_of_lt h8'], by simp; omega,
        by rwa [Nat.mod_eq_of_lt h8'], by simp [Nat.mod_eq_of_lt h8']⟩

/-- Pending bits with a code above them: the pending bits, then the code's low bits. -/
theorem codeBits_merge {acc nb : Nat} (ha : acc < 2 ^ nb) (v w : Nat) :
    codeBits (acc ||| ((v &&& mask w) <<< nb)) (nb + w) = codeBits acc nb ++ codeBits v w := by
  rw [codeBits_add]
  congr 1
  · refine codeBits_congr fun j hj => ?_
    rw [Nat.testBit_or, Nat.testBit_shiftLeft]
    simp [Nat.not_le.mpr hj]
  · refine codeBits_congr fun j hj => ?_
    have hz : acc.testBit (nb + j) = false :=
      Nat.testBit_lt_two_pow (Nat.lt_of_lt_of_le ha (Nat.pow_le_pow_right (by omega) (by omega)))
    rw [Nat.testBit_shiftRight, Nat.testBit_or, Nat.testBit_shiftLeft, hz, mask, Nat.testBit_and,
      Nat.testBit_two_pow_sub_one]
    simp [hj]

/-- Pending bits with a code above them fit the width of both. -/
theorem merge_lt {acc nb : Nat} (ha : acc < 2 ^ nb) (v w : Nat) :
    acc ||| ((v &&& mask w) <<< nb) < 2 ^ (nb + w) := by
  refine Nat.or_lt_two_pow (Nat.lt_of_lt_of_le ha (Nat.pow_le_pow_right (by omega) (by omega))) ?_
  rw [Nat.shiftLeft_eq, Nat.pow_add, Nat.mul_comm]
  refine Nat.mul_lt_mul_of_pos_left ?_ (by positivity)
  exact Nat.lt_of_le_of_lt Nat.and_le_right (by have := Nat.two_pow_pos w; rw [mask]; omega)

end Sys2Proof.Laws
end

