-- ==== Sys2Proof/Laws/Dictionary.lean ====
section
/-! SUPPORT. Finding, walking and keeping the dictionary (spec 42_dictionary.md R120 to R125, 10_state.md R26). -/

namespace Sys2Proof.Laws

open Sys2Proof.Machine Sys2Proof.Safety

/-! ### One key -/

theorem dictFind_append (d e : List DictEntry) (pre : Option Code) (i : Byte) :
    dictFind (d ++ e) pre i = (dictFind d pre i).or (dictFind e pre i) := by
  simp only [dictFind, List.find?_append]
  cases d.find? fun x => x.pre == pre && x.suffix == i <;> simp

theorem dictFind_single (e : DictEntry) (pre : Option Code) (i : Byte) :
    dictFind [e] pre i = if e.pre = pre ∧ e.suffix = i then some e.code else none := by
  simp only [dictFind, List.find?_singleton]
  by_cases h : e.pre = pre ∧ e.suffix = i
  · simp [h.1, h.2]
  · rw [if_neg h, if_neg (by simpa using h)]
    rfl

/-- A code found is that of an entry with the key. -/
theorem dictFind_entry {d : List DictEntry} {pre : Option Code} {i : Byte} {k : Code}
    (h : dictFind d pre i = some k) : ∃ e ∈ d, e.pre = pre ∧ e.suffix = i ∧ e.code = k := by
  rw [dictFind, Option.map_eq_some_iff] at h
  obtain ⟨e, he, hk⟩ := h
  have hp := List.find?_some he
  simp only [Bool.and_eq_true, beq_iff_eq] at hp
  exact ⟨e, List.mem_of_find?_eq_some he, hp.1, hp.2, hk⟩

/-- Where keys are distinct, an entry is found by its key. -/
theorem dictFind_of_mem {d : List DictEntry} (hn : (d.map fun e => (e.pre, e.suffix)).Nodup) {e : DictEntry}
    (he : e ∈ d) : dictFind d e.pre e.suffix = some e.code := by
  induction d with
  | nil => simp at he
  | cons a t ih =>
    rw [List.map_cons, List.nodup_cons] at hn
    rw [← List.singleton_append, dictFind_append, dictFind_single]
    rcases List.mem_cons.mp he with rfl | he
    · simp
    · have hne : ¬(a.pre = e.pre ∧ a.suffix = e.suffix) := by
        intro h
        exact hn.1 (List.mem_map.mpr ⟨e, he, by rw [h.1, h.2]⟩)
      rw [if_neg hne, ih hn.2 he]
      rfl

/-- No entry with the key: nothing is found. -/
theorem dictFind_none {d : List DictEntry} {pre : Option Code} {i : Byte} (h : dictFind d pre i = none) :
    (pre, i) ∉ d.map fun e => (e.pre, e.suffix) := by
  rw [dictFind, Option.map_eq_none_iff, List.find?_eq_none] at h
  intro hm
  obtain ⟨e, he, heq⟩ := List.mem_map.mp hm
  have := h e he
  simp only [Prod.mk.injEq] at heq
  simp [heq.1, heq.2] at this

/-! ### The literals -/

@[simp] theorem literals_length (n : Nat) : (literals n).length = n := by simp [literals]

theorem literals_codes {n : Nat} (hn : n ≤ 256) : (literals n).map (fun e => e.code.toNat) = List.range n := by
  rw [literals, List.map_map]
  refine (List.map_congr_left fun j hj => ?_).trans (List.map_id _)
  have : j < n := List.mem_range.mp hj
  simp only [Function.comp, BitVec.toNat_ofNat, id]
  omega

theorem literals_pre {n : Nat} {e : DictEntry} (he : e ∈ literals n) : e.pre = none := by
  obtain ⟨j, _, rfl⟩ := List.mem_map.mp he
  rfl

/-- No literal extends a sequence. -/
theorem dictFind_literals_some (n : Nat) (p : Code) (i : Byte) : dictFind (literals n) (some p) i = none := by
  rw [dictFind, Option.map_eq_none_iff, List.find?_eq_none]
  intro e he
  simp [literals_pre he]

theorem literals_keys {n : Nat} (hn : n ≤ 256) : ((literals n).map fun e => (e.pre, e.suffix)).Nodup := by
  rw [literals, List.map_map]
  refine List.Nodup.map_on ?_ List.nodup_range
  intro a ha b hb h
  have ha' := List.mem_range.mp ha
  have hb' := List.mem_range.mp hb
  simp only [Function.comp, Prod.mk.injEq, true_and] at h
  have h2 := congrArg BitVec.toNat h
  simp only [BitVec.toNat_ofNat] at h2
  omega

/-- A literal is found exactly below the color count, under the index itself (R79). -/
theorem dictFind_literals_none {n : Nat} (hn : n ≤ 256) (i : Byte) :
    dictFind (literals n) none i = if i.toNat < n then some (literalCode i) else none := by
  split
  · rename_i h
    have hm : ({ pre := none, suffix := BitVec.ofNat 8 i.toNat, code := BitVec.ofNat 12 i.toNat } : DictEntry) ∈
        literals n := List.mem_map.mpr ⟨i.toNat, List.mem_range.mpr h, rfl⟩
    have := dictFind_of_mem (literals_keys hn) hm
    simp only [BitVec.ofNat_toNat, BitVec.setWidth_eq] at this
    exact this
  · rename_i h
    rw [dictFind, Option.map_eq_none_iff, List.find?_eq_none]
    intro e he
    obtain ⟨j, hj, rfl⟩ := List.mem_map.mp he
    have hj' := List.mem_range.mp hj
    simp only [Bool.and_eq_true, beq_iff_eq, true_and]
    intro hji
    apply h
    rw [← hji, BitVec.toNat_ofNat]
    omega

/-! ### Whole sequences -/

@[simp] theorem dictWalk_nil (d : List DictEntry) (pre : Option Code) : dictWalk d pre [] = pre := rfl

/-- A walk that gets to a code goes on from there. -/
theorem dictWalk_append {d : List DictEntry} {a : List Byte} {pre : Option Code} {k : Code}
    (h : dictWalk d pre a = some k) (b : List Byte) : dictWalk d pre (a ++ b) = dictWalk d (some k) b := by
  induction a generalizing pre with
  | nil => rw [dictWalk_nil] at h; rw [h, List.nil_append]
  | cons i t ih =>
    rw [List.cons_append, dictWalk]
    rw [dictWalk] at h
    cases hf : dictFind d pre i with
    | none => rw [hf] at h; simp at h
    | some k' => rw [hf] at h; exact ih h

/-- A walk that stops before the end has stopped. -/
theorem dictWalk_append_none {d : List DictEntry} {a : List Byte} {pre : Option Code} (ha : a ≠ [])
    (h : dictWalk d pre a = none) (b : List Byte) : dictWalk d pre (a ++ b) = none := by
  induction a generalizing pre with
  | nil => exact absurd rfl ha
  | cons i t ih =>
    rw [List.cons_append, dictWalk]
    rw [dictWalk] at h
    cases hf : dictFind d pre i with
    | none => rfl
    | some k' =>
      rw [hf] at h
      cases t with
      | nil => simp at h
      | cons j u => exact ih (by simp) h

/-- The last byte of a sequence is looked up under the code of the rest, which is itself in the dictionary. -/
theorem dictLookup_concat {d : List DictEntry} {a : List Byte} (ha : a ≠ []) (i : Byte) :
    dictLookup d (a ++ [i]) = (dictLookup d a).bind fun k => dictFind d (some k) i := by
  unfold dictLookup
  cases h : dictWalk d none a with
  | none => exact dictWalk_append_none ha h [i]
  | some k =>
    rw [dictWalk_append h [i], dictWalk, Option.bind_some]
    cases dictFind d (some k) i <;> rfl

theorem dictLookup_single (d : List DictEntry) (i : Byte) : dictLookup d [i] = dictFind d none i := by
  rw [dictLookup, dictWalk]
  cases dictFind d none i <;> rfl

@[simp] theorem dictLookup_nil (d : List DictEntry) : dictLookup d [] = none := rfl

/-- A sequence found has the code of an entry, whose key is the code of the sequence without its last byte, and that
byte. -/
theorem dictLookup_entry {d : List DictEntry} {s : List Byte} {k : Code} (h : dictLookup d s = some k) :
    ∃ a i, s = a ++ [i] ∧ ∃ e ∈ d, e.pre = dictLookup d a ∧ e.suffix = i ∧ e.code = k := by
  rcases List.eq_nil_or_concat s with rfl | ⟨a, i, rfl⟩
  · simp at h
  · rw [List.concat_eq_append] at h ⊢
    refine ⟨a, i, rfl, ?_⟩
    by_cases ha : a = []
    · subst ha
      rw [List.nil_append, dictLookup_single] at h
      exact dictFind_entry h
    · rw [dictLookup_concat ha] at h
      obtain ⟨k', hk', hf⟩ := Option.bind_eq_some_iff.mp h
      rw [hk']
      exact dictFind_entry hf

theorem dictLookup_mem {d : List DictEntry} {s : List Byte} {k : Code} (h : dictLookup d s = some k) :
    k ∈ dictCodes d := by
  obtain ⟨_, _, _, e, he, _, _, hk⟩ := dictLookup_entry h
  exact List.mem_map.mpr ⟨e, he, hk⟩

/-! ### The dictionary between commands -/

theorem dictOk_length {c nc : Nat} {d : List DictEntry} (h : DictOk c nc d) : d.length = c + (nc - (c + 2)) := by
  have := congrArg List.length h.codes
  simpa using this

/-- A code of the dictionary is below the next unused one, and is not Clear or EOI. -/
theorem dictOk_code_bounds {c nc : Nat} {d : List DictEntry} (h : DictOk c nc d) {k : Code} (hk : k ∈ dictCodes d) :
    k.toNat < c ∨ (c + 2 ≤ k.toNat ∧ k.toNat < nc) := by
  obtain ⟨e, he, rfl⟩ := List.mem_map.mp hk
  have hm : e.code.toNat ∈ d.map (fun e => e.code.toNat) := List.mem_map.mpr ⟨e, he, rfl⟩
  rw [h.codes, List.mem_append, List.mem_range, List.mem_range'_1] at hm
  omega

/-- Every code in use is that of an entry. -/
theorem dictOk_mem_codes {c nc : Nat} {d : List DictEntry} (h : DictOk c nc d) {k : Code}
    (hk : k.toNat < c ∨ (c + 2 ≤ k.toNat ∧ k.toNat < nc)) : k ∈ dictCodes d := by
  have hm : k.toNat ∈ d.map (fun e => e.code.toNat) := by
    rw [h.codes, List.mem_append, List.mem_range, List.mem_range'_1]
    omega
  obtain ⟨e, he, hek⟩ := List.mem_map.mp hm
  exact List.mem_map.mpr ⟨e, he, BitVec.eq_of_toNat_eq hek⟩

/-- Two entries with one code are one entry. -/
theorem dictOk_code_inj {c nc : Nat} {d : List DictEntry} (h : DictOk c nc d) {e f : DictEntry} (he : e ∈ d)
    (hf : f ∈ d) (hc : e.code = f.code) : e = f := by
  have hn : (d.map fun e => e.code.toNat).Nodup := by
    rw [h.codes, List.nodup_append]
    refine ⟨List.nodup_range, List.nodup_range', ?_⟩
    intro a ha b hb
    rw [List.mem_range] at ha
    rw [List.mem_range'_1] at hb
    omega
  exact List.inj_on_of_nodup_map hn he hf (by rw [hc])

/-- An entry is a literal or extends a sequence with a smaller code. -/
theorem dictOk_entry_cases {c nc : Nat} {d : List DictEntry} (h : DictOk c nc d) {e : DictEntry} (he : e ∈ d) :
    e ∈ literals c ∨ ∃ p ∈ dictCodes d, e.pre = some p ∧ p.toNat < e.code.toNat := by
  rw [← List.take_append_drop c d, List.mem_append, h.literals_first] at he
  exact he.imp_right (h.extends_earlier e)

/-- The dictionary after DictReset (R120). -/
theorem dictOk_literals {c : Nat} (hc : c ≤ 256) : DictOk c (c + 2) (literals c) where
  literals_first := List.take_of_length_le (by simp)
  codes := by rw [literals_codes hc]; simp
  extends_earlier := by
    intro e he
    rw [List.drop_of_length_le (by simp)] at he
    simp at he
  keys_distinct := literals_keys hc

/-- The dictionary after DictInsert (R122). -/
theorem dictOk_insert {c nc : Nat} {d : List DictEntry} (h : DictOk c nc d) {p : Code} {i : Byte}
    (hp : p ∈ dictCodes d) (hf : dictFind d (some p) i = none) (hc : c + 2 ≤ nc) (hn : nc ≤ Config.lastCode) :
    DictOk c (nc + 1) (d ++ [{ pre := some p, suffix := i, code := BitVec.ofNat 12 nc }]) where
  literals_first := by
    rw [List.take_append_of_le_length (by rw [dictOk_length h]; omega)]
    exact h.literals_first
  codes := by
    have hk : (BitVec.ofNat 12 nc).toNat = nc := by
      rw [BitVec.toNat_ofNat]
      exact Nat.mod_eq_of_lt (by simp at hn; omega)
    rw [List.map_append, h.codes, show nc + 1 - (c + 2) = nc - (c + 2) + 1 by omega, List.range'_concat,
      List.append_assoc]
    simp only [List.map_cons, List.map_nil, hk]
    congr 3
    omega
  extends_earlier := by
    intro e he
    rw [List.drop_append_of_le_length (by rw [dictOk_length h]; omega), List.mem_append] at he
    have hsub : ∀ q ∈ dictCodes d,
        q ∈ dictCodes (d ++ [{ pre := some p, suffix := i, code := BitVec.ofNat 12 nc }]) := by
      intro q hq
      simp only [dictCodes, List.map_append, List.mem_append]
      exact Or.inl hq
    rcases he with he | he
    · obtain ⟨q, hq, h1, h2⟩ := h.extends_earlier e he
      exact ⟨q, hsub q hq, h1, h2⟩
    · rw [List.mem_singleton] at he
      subst he
      refine ⟨p, hsub p hp, rfl, ?_⟩
      have := dictOk_code_bounds h hp
      simp only [BitVec.toNat_ofNat]
      rw [Nat.mod_eq_of_lt (by simp at hn; omega)]
      omega
  keys_distinct := by
    rw [List.map_append, List.nodup_append]
    refine ⟨h.keys_distinct, by simp, ?_⟩
    intro a ha b hb hab
    simp only [List.map_cons, List.map_nil, List.mem_singleton] at hb
    exact dictFind_none hf (hb ▸ hab ▸ ha)

end Sys2Proof.Laws
end

