-- ==== Sys2Proof/Laws/Driver.lean ====
section
/-! SUPPORT. What a command can do, said once (spec 43_driver.md R142, R144, R155). -/

namespace Sys2Proof.Laws

open Sys2Proof.Machine

/-! ### The commands, case by case -/

theorem execStart_fault {cc : BitVec 16} {s : State} (h : s.state = .fault) : exec (.start cc) s = .next s := by
  simp [exec, execStart, h]

theorem execStart_sequence {cc : BitVec 16} {s : State} (h : s.state = .armed ∨ s.state = .scanning) :
    exec (.start cc) s = .next (raiseFault .sequence s) := by
  rcases h with h | h <;> simp [exec, execStart, h]

theorem execStart_range {cc : BitVec 16} {s : State} (h : s.state = .idle ∨ s.state = .done)
    (hc : 256 < coerceColors cc) : exec (.start cc) s = .next (raiseFault .colorRange s) := by
  rcases h with h | h <;> simp [exec, execStart, h, hc]

theorem execStart_open {cc : BitVec 16} {s : State} (h : s.state = .idle ∨ s.state = .done)
    (hc : coerceColors cc ≤ 256) : exec (.start cc) s = .next (openJob (coerceColors cc) s) := by
  have hc' : ¬256 < coerceColors cc := by omega
  rcases h with h | h <;> simp [exec, execStart, h, hc']

theorem execPush_fault {i : Byte} {s : State} (h : s.state = .fault) : exec (.push i) s = .next s := by
  simp [exec, execPush, h]

theorem execPush_sequence {i : Byte} {s : State} (h : s.state = .idle ∨ s.state = .done) :
    exec (.push i) s = .next (raiseFault .sequence s) := by
  rcases h with h | h <;> simp [exec, execPush, h]

theorem execPush_index {i : Byte} {s : State} (h : s.state = .armed ∨ s.state = .scanning)
    (hi : s.c.toNat ≤ i.toNat) : exec (.push i) s = .next (raiseFault .index s) := by
  have hi' : ¬i.toNat < s.c.toNat := by omega
  rcases h with h | h <;> simp [exec, execPush, h, indexInRange, hi']

theorem execPush_first {i : Byte} {s : State} (h : s.state = .armed) (hi : i.toNat < s.c.toNat) :
    exec (.push i) s = .next (pushFirst i s) := by
  simp [exec, execPush, h, indexInRange, hi]

theorem execPush_next {i : Byte} {s : State} (h : s.state = .scanning) (hi : i.toNat < s.c.toNat) :
    exec (.push i) s = .next (pushNext i s) := by
  simp [exec, execPush, h, indexInRange, hi]

theorem execEnd_fault {s : State} (h : s.state = .fault) : exec .endStream s = .next s := by
  simp [exec, execEnd, h]

theorem execEnd_empty {s : State} (h : s.state = .armed) : exec .endStream s = .next (raiseFault .empty s) := by
  simp [exec, execEnd, h]

theorem execEnd_sequence {s : State} (h : s.state = .idle ∨ s.state = .done) :
    exec .endStream s = .next (raiseFault .sequence s) := by
  rcases h with h | h <;> simp [exec, execEnd, h]

theorem execEnd_close {s : State} (h : s.state = .scanning) : exec .endStream s = .next (closeJob s) := by
  simp [exec, execEnd, h]

/-! ### Everything a command can do -/

/-- The ways a command can go: ignored in FAULT, a fault raised, or one of its four effects. -/
inductive Went (s : State) : Instr → State → Prop where
  | ignored (i : Instr) (h : s.state = .fault) : Went s i s
  | raised (i : Instr) (e : Err) (h : s.state ≠ .fault) (he : e ≠ .noError) : Went s i (raiseFault e s)
  | opened (cc : BitVec 16) (h : s.state = .idle ∨ s.state = .done) (hc : coerceColors cc ≤ 256) :
      Went s (.start cc) (openJob (coerceColors cc) s)
  | first (i : Byte) (h : s.state = .armed) (hi : i.toNat < s.c.toNat) : Went s (.push i) (pushFirst i s)
  | next (i : Byte) (h : s.state = .scanning) (hi : i.toNat < s.c.toNat) : Went s (.push i) (pushNext i s)
  | closed (h : s.state = .scanning) : Went s .endStream (closeJob s)

/-- A command answers a next state, and it is one of these. -/
theorem exec_went (i : Instr) (s : State) : ∃ t, exec i s = .next t ∧ Went s i t := by
  cases hs : s.state with
  | fault =>
    refine ⟨s, ?_, .ignored i hs⟩
    cases i with
    | start cc => exact execStart_fault hs
    | push b => exact execPush_fault hs
    | endStream => exact execEnd_fault hs
  | idle =>
    have hn : s.state ≠ .fault := by simp [hs]
    cases i with
    | start cc =>
      by_cases hc : coerceColors cc ≤ 256
      · exact ⟨_, execStart_open (.inl hs) hc, .opened cc (.inl hs) hc⟩
      · exact ⟨_, execStart_range (.inl hs) (by omega), .raised _ _ hn (by decide)⟩
    | push b => exact ⟨_, execPush_sequence (.inl hs), .raised _ _ hn (by decide)⟩
    | endStream => exact ⟨_, execEnd_sequence (.inl hs), .raised _ _ hn (by decide)⟩
  | done =>
    have hn : s.state ≠ .fault := by simp [hs]
    cases i with
    | start cc =>
      by_cases hc : coerceColors cc ≤ 256
      · exact ⟨_, execStart_open (.inr hs) hc, .opened cc (.inr hs) hc⟩
      · exact ⟨_, execStart_range (.inr hs) (by omega), .raised _ _ hn (by decide)⟩
    | push b => exact ⟨_, execPush_sequence (.inr hs), .raised _ _ hn (by decide)⟩
    | endStream => exact ⟨_, execEnd_sequence (.inr hs), .raised _ _ hn (by decide)⟩
  | armed =>
    have hn : s.state ≠ .fault := by simp [hs]
    cases i with
    | start cc => exact ⟨_, execStart_sequence (.inl hs), .raised _ _ hn (by decide)⟩
    | push b =>
      by_cases hi : b.toNat < s.c.toNat
      · exact ⟨_, execPush_first hs hi, .first b hs hi⟩
      · exact ⟨_, execPush_index (.inl hs) (by omega), .raised _ _ hn (by decide)⟩
    | endStream => exact ⟨_, execEnd_empty hs, .raised _ _ hn (by decide)⟩
  | scanning =>
    have hn : s.state ≠ .fault := by simp [hs]
    cases i with
    | start cc => exact ⟨_, execStart_sequence (.inr hs), .raised _ _ hn (by decide)⟩
    | push b =>
      by_cases hi : b.toNat < s.c.toNat
      · exact ⟨_, execPush_next hs hi, .next b hs hi⟩
      · exact ⟨_, execPush_index (.inr hs) (by omega), .raised _ _ hn (by decide)⟩
    | endStream => exact ⟨_, execEnd_close hs, .closed hs⟩

theorem went_of_exec {i : Instr} {s t : State} (h : exec i s = .next t) : Went s i t := by
  obtain ⟨t', ht, hw⟩ := exec_went i s
  rw [h] at ht
  cases ht
  exact hw

/-! ### The effects, field by field -/

section

variable (cn : Nat) (i : Byte) (s : State)

@[simp] theorem openJob_state : (openJob cn s).state = .armed := rfl
@[simp] theorem openJob_err : (openJob cn s).err = s.err := rfl
@[simp] theorem openJob_c : (openJob cn s).c = BitVec.ofNat 9 cn := rfl
@[simp] theorem openJob_mcs : (openJob cn s).mcs = BitVec.ofNat 4 (minCodeSize cn) := rfl
@[simp] theorem openJob_cs : (openJob cn s).cs = BitVec.ofNat 4 (minCodeSize cn + 1) := rfl
@[simp] theorem openJob_nc :
    (openJob cn s).nc = BitVec.ofNat 13 ((BitVec.ofNat 9 cn).toNat + 2) := rfl
@[simp] theorem openJob_w : (openJob cn s).w = 0 := rfl
@[simp] theorem openJob_dict : (openJob cn s).dict = literals (BitVec.ofNat 9 cn).toNat := rfl
@[simp] theorem openJob_acc : (openJob cn s).acc = 0 := rfl
@[simp] theorem openJob_nb : (openJob cn s).nb = 0 := rfl
@[simp] theorem openJob_buf : (openJob cn s).buf = [] := rfl
@[simp] theorem openJob_outQueue : (openJob cn s).outQueue = s.outQueue := rfl
@[simp] theorem openJob_taken : (openJob cn s).taken = s.taken := rfl
@[simp] theorem openJob_cmds : (openJob cn s).cmds = s.cmds := rfl
@[simp] theorem openJob_host : (openJob cn s).host = s.host := rfl
@[simp] theorem openJob_statusLog : (openJob cn s).statusLog = s.statusLog := rfl

@[simp] theorem pushFirst_state : (pushFirst i s).state = .scanning := rfl
@[simp] theorem pushFirst_err : (pushFirst i s).err = s.err := rfl
@[simp] theorem pushFirst_c : (pushFirst i s).c = s.c := rfl
@[simp] theorem pushFirst_mcs : (pushFirst i s).mcs = s.mcs := rfl
@[simp] theorem pushFirst_cs : (pushFirst i s).cs = s.cs := rfl
@[simp] theorem pushFirst_nc : (pushFirst i s).nc = s.nc := rfl
@[simp] theorem pushFirst_w : (pushFirst i s).w = literalCode i := rfl
@[simp] theorem pushFirst_dict : (pushFirst i s).dict = s.dict := rfl
@[simp] theorem pushFirst_taken : (pushFirst i s).taken = s.taken := rfl
@[simp] theorem pushFirst_cmds : (pushFirst i s).cmds = s.cmds := rfl
@[simp] theorem pushFirst_host : (pushFirst i s).host = s.host := rfl
@[simp] theorem pushFirst_statusLog : (pushFirst i s).statusLog = s.statusLog := rfl

@[simp] theorem ceilingReset_state : (ceilingReset s).state = s.state := rfl
@[simp] theorem ceilingReset_err : (ceilingReset s).err = s.err := rfl
@[simp] theorem ceilingReset_c : (ceilingReset s).c = s.c := rfl
@[simp] theorem ceilingReset_mcs : (ceilingReset s).mcs = s.mcs := rfl
@[simp] theorem ceilingReset_cs : (ceilingReset s).cs = s.mcs + 1 := rfl
@[simp] theorem ceilingReset_nc : (ceilingReset s).nc = BitVec.ofNat 13 (s.c.toNat + 2) := rfl
@[simp] theorem ceilingReset_w : (ceilingReset s).w = s.w := rfl
@[simp] theorem ceilingReset_dict : (ceilingReset s).dict = literals s.c.toNat := rfl
@[simp] theorem ceilingReset_acc : (ceilingReset s).acc = (writeCode s.c.toNat s).acc := rfl
@[simp] theorem ceilingReset_nb : (ceilingReset s).nb = (writeCode s.c.toNat s).nb := rfl
@[simp] theorem ceilingReset_buf : (ceilingReset s).buf = (writeCode s.c.toNat s).buf := rfl
@[simp] theorem ceilingReset_outQueue : (ceilingReset s).outQueue = (writeCode s.c.toNat s).outQueue := rfl
@[simp] theorem ceilingReset_taken : (ceilingReset s).taken = s.taken := rfl
@[simp] theorem ceilingReset_cmds : (ceilingReset s).cmds = s.cmds := rfl
@[simp] theorem ceilingReset_host : (ceilingReset s).host = s.host := rfl
@[simp] theorem ceilingReset_statusLog : (ceilingReset s).statusLog = s.statusLog := rfl

@[simp] theorem closeJob_state : (closeJob s).state = .done := rfl
@[simp] theorem closeJob_err : (closeJob s).err = s.err := by simp [closeJob]
@[simp] theorem closeJob_c : (closeJob s).c = s.c := by simp [closeJob]
@[simp] theorem closeJob_mcs : (closeJob s).mcs = s.mcs := by simp [closeJob]
@[simp] theorem closeJob_cs : (closeJob s).cs = s.cs := by simp [closeJob]
@[simp] theorem closeJob_nc : (closeJob s).nc = s.nc := by simp [closeJob]
@[simp] theorem closeJob_w : (closeJob s).w = s.w := by simp [closeJob]
@[simp] theorem closeJob_dict : (closeJob s).dict = s.dict := by simp [closeJob]
@[simp] theorem closeJob_acc : (closeJob s).acc = 0 := by simp [closeJob]
@[simp] theorem closeJob_nb : (closeJob s).nb = 0 := by simp [closeJob]
@[simp] theorem closeJob_buf : (closeJob s).buf = [] := by simp [closeJob]
@[simp] theorem closeJob_taken : (closeJob s).taken = s.taken := by simp [closeJob]
@[simp] theorem closeJob_cmds : (closeJob s).cmds = s.cmds := by simp [closeJob]
@[simp] theorem closeJob_host : (closeJob s).host = s.host := by simp [closeJob]
@[simp] theorem closeJob_statusLog : (closeJob s).statusLog = s.statusLog := by simp [closeJob]

end

/-! ### A mismatch, in two parts -/

/-- A mismatch up to where it looks at the allocated code (R149): the entry made, the code of `P` written, `P <- [i]`. -/
def mismatchHead (i : Byte) (s : State) : State :=
  { writeCode s.w.toNat { dictInsert s.w i (s.nc.setWidth 12) s with nc := s.nc + 1 } with w := literalCode i }

/-- A mismatch that allocates 4095 (R152). -/
theorem pushMismatch_ceiling {i : Byte} {s : State} (h : s.nc.toNat = 4095) :
    pushMismatch i s = ceilingReset (mismatchHead i s) := by
  simp [pushMismatch, mismatchHead, h]

/-- A mismatch that allocates `2^CS` (R153). -/
theorem pushMismatch_grow {i : Byte} {s : State} (h : s.nc.toNat ≠ 4095) (hg : s.nc.toNat = 2 ^ s.cs.toNat) :
    pushMismatch i s = { mismatchHead i s with cs := s.cs + 1 } := by
  have h' : ¬2 ^ s.cs.toNat = 4095 := by rw [← hg]; exact h
  simp [pushMismatch, mismatchHead, hg, h']

/-- A mismatch with neither. -/
theorem pushMismatch_plain {i : Byte} {s : State} (h : s.nc.toNat ≠ 4095) (hg : s.nc.toNat ≠ 2 ^ s.cs.toNat) :
    pushMismatch i s = mismatchHead i s := by
  simp [pushMismatch, mismatchHead, h, hg]

/-- A mismatch is one of the three. -/
theorem pushMismatch_cases (i : Byte) (s : State) :
    (s.nc.toNat = 4095 ∧ pushMismatch i s = ceilingReset (mismatchHead i s)) ∨
      (s.nc.toNat ≠ 4095 ∧ s.nc.toNat = 2 ^ s.cs.toNat ∧ pushMismatch i s = { mismatchHead i s with cs := s.cs + 1 }) ∨
        (s.nc.toNat ≠ 4095 ∧ s.nc.toNat ≠ 2 ^ s.cs.toNat ∧ pushMismatch i s = mismatchHead i s) := by
  by_cases h : s.nc.toNat = 4095
  · exact .inl ⟨h, pushMismatch_ceiling h⟩
  · by_cases hg : s.nc.toNat = 2 ^ s.cs.toNat
    · exact .inr (.inl ⟨h, hg, pushMismatch_grow h hg⟩)
    · exact .inr (.inr ⟨h, hg, pushMismatch_plain h hg⟩)

section

variable (i : Byte) (s : State)

@[simp] theorem mismatchHead_state : (mismatchHead i s).state = s.state := rfl
@[simp] theorem mismatchHead_err : (mismatchHead i s).err = s.err := rfl
@[simp] theorem mismatchHead_c : (mismatchHead i s).c = s.c := rfl
@[simp] theorem mismatchHead_mcs : (mismatchHead i s).mcs = s.mcs := rfl
@[simp] theorem mismatchHead_cs : (mismatchHead i s).cs = s.cs := rfl
@[simp] theorem mismatchHead_nc : (mismatchHead i s).nc = s.nc + 1 := rfl
@[simp] theorem mismatchHead_w : (mismatchHead i s).w = literalCode i := rfl
@[simp] theorem mismatchHead_dict :
    (mismatchHead i s).dict = s.dict ++ [{ pre := some s.w, suffix := i, code := s.nc.setWidth 12 }] := rfl
@[simp] theorem mismatchHead_acc : (mismatchHead i s).acc = (writeCode s.w.toNat s).acc := rfl
@[simp] theorem mismatchHead_nb : (mismatchHead i s).nb = (writeCode s.w.toNat s).nb := rfl
@[simp] theorem mismatchHead_buf : (mismatchHead i s).buf = (writeCode s.w.toNat s).buf := rfl
@[simp] theorem mismatchHead_outQueue : (mismatchHead i s).outQueue = (writeCode s.w.toNat s).outQueue := rfl
@[simp] theorem mismatchHead_taken : (mismatchHead i s).taken = s.taken := rfl
@[simp] theorem mismatchHead_cmds : (mismatchHead i s).cmds = s.cmds := rfl
@[simp] theorem mismatchHead_host : (mismatchHead i s).host = s.host := rfl
@[simp] theorem mismatchHead_statusLog : (mismatchHead i s).statusLog = s.statusLog := rfl

end

/-- A PUSH in SCANNING is a match (R148) or a mismatch (R149). -/
theorem pushNext_cases (i : Byte) (s : State) :
    (∃ k, dictFind s.dict (some s.w) i = some k ∧ pushNext i s = { s with w := k }) ∨
      (dictFind s.dict (some s.w) i = none ∧ pushNext i s = pushMismatch i s) := by
  unfold pushNext
  cases h : dictFind s.dict (some s.w) i with
  | some k => exact .inl ⟨k, rfl, rfl⟩
  | none => exact .inr ⟨rfl, rfl⟩

/-! ### What a later PUSH keeps -/

section

variable (i : Byte) (s : State)

@[simp] theorem pushMismatch_state : (pushMismatch i s).state = s.state := by
  rcases pushMismatch_cases i s with ⟨_, h⟩ | ⟨_, _, h⟩ | ⟨_, _, h⟩ <;> simp [h]
@[simp] theorem pushMismatch_err : (pushMismatch i s).err = s.err := by
  rcases pushMismatch_cases i s with ⟨_, h⟩ | ⟨_, _, h⟩ | ⟨_, _, h⟩ <;> simp [h]
@[simp] theorem pushMismatch_c : (pushMismatch i s).c = s.c := by
  rcases pushMismatch_cases i s with ⟨_, h⟩ | ⟨_, _, h⟩ | ⟨_, _, h⟩ <;> simp [h]
@[simp] theorem pushMismatch_mcs : (pushMismatch i s).mcs = s.mcs := by
  rcases pushMismatch_cases i s with ⟨_, h⟩ | ⟨_, _, h⟩ | ⟨_, _, h⟩ <;> simp [h]
@[simp] theorem pushMismatch_taken : (pushMismatch i s).taken = s.taken := by
  rcases pushMismatch_cases i s with ⟨_, h⟩ | ⟨_, _, h⟩ | ⟨_, _, h⟩ <;> simp [h]
@[simp] theorem pushMismatch_cmds : (pushMismatch i s).cmds = s.cmds := by
  rcases pushMismatch_cases i s with ⟨_, h⟩ | ⟨_, _, h⟩ | ⟨_, _, h⟩ <;> simp [h]
@[simp] theorem pushMismatch_host : (pushMismatch i s).host = s.host := by
  rcases pushMismatch_cases i s with ⟨_, h⟩ | ⟨_, _, h⟩ | ⟨_, _, h⟩ <;> simp [h]
@[simp] theorem pushMismatch_statusLog : (pushMismatch i s).statusLog = s.statusLog := by
  rcases pushMismatch_cases i s with ⟨_, h⟩ | ⟨_, _, h⟩ | ⟨_, _, h⟩ <;> simp [h]
@[simp] theorem pushMismatch_w : (pushMismatch i s).w = literalCode i := by
  rcases pushMismatch_cases i s with ⟨_, h⟩ | ⟨_, _, h⟩ | ⟨_, _, h⟩ <;> simp [h]

@[simp] theorem pushNext_state : (pushNext i s).state = s.state := by
  rcases pushNext_cases i s with ⟨_, _, h⟩ | ⟨_, h⟩ <;> simp [h]
@[simp] theorem pushNext_err : (pushNext i s).err = s.err := by
  rcases pushNext_cases i s with ⟨_, _, h⟩ | ⟨_, h⟩ <;> simp [h]
@[simp] theorem pushNext_c : (pushNext i s).c = s.c := by
  rcases pushNext_cases i s with ⟨_, _, h⟩ | ⟨_, h⟩ <;> simp [h]
@[simp] theorem pushNext_mcs : (pushNext i s).mcs = s.mcs := by
  rcases pushNext_cases i s with ⟨_, _, h⟩ | ⟨_, h⟩ <;> simp [h]
@[simp] theorem pushNext_taken : (pushNext i s).taken = s.taken := by
  rcases pushNext_cases i s with ⟨_, _, h⟩ | ⟨_, h⟩ <;> simp [h]
@[simp] theorem pushNext_cmds : (pushNext i s).cmds = s.cmds := by
  rcases pushNext_cases i s with ⟨_, _, h⟩ | ⟨_, h⟩ <;> simp [h]
@[simp] theorem pushNext_host : (pushNext i s).host = s.host := by
  rcases pushNext_cases i s with ⟨_, _, h⟩ | ⟨_, h⟩ <;> simp [h]
@[simp] theorem pushNext_statusLog : (pushNext i s).statusLog = s.statusLog := by
  rcases pushNext_cases i s with ⟨_, _, h⟩ | ⟨_, h⟩ <;> simp [h]

end

end Sys2Proof.Laws
end

