-- ==== Sys2Proof/Laws/Frames.lean ====
section
/-! SUPPORT. Drain's loop, and the reference packing and framing taken apart from the front (spec 41_bit_packer.md R104,
44_subblock.md R180 to R182). -/

namespace Sys2Proof.Laws

open Sys2Proof.Machine Sys2Proof.Reference

@[simp] theorem plainWords_append (a b : List Byte) : plainWords (a ++ b) = plainWords a ++ plainWords b := by
  simp [plainWords]

@[simp] theorem plainWords_length (a : List Byte) : (plainWords a).length = a.length := by
  simp [plainWords]

@[simp] theorem plainWords_nil : plainWords [] = [] := rfl

/-- A full sub-block is its length byte 255 and its data. -/
theorem subBlock_full {b : List Byte} (h : b.length = 255) : subBlock b = plainWords (0xFF#8 :: b) := by
  rw [subBlock, h]

@[simp] theorem subBlock_length (b : List Byte) : (subBlock b).length = b.length + 1 := by
  simp [subBlock]

/-- Too few bytes for a sub-block: the loop stops. -/
theorem drainLoop_short (fuel : Nat) {buf : List Byte} (queue : List OutWord) (h : buf.length < 255) :
    drainLoop fuel buf queue = (buf, queue) := by
  cases fuel with
  | zero => rfl
  | succ f => rw [drainLoop, if_neg (by simp; omega)]

/-- Drain's loop moves whole 255-byte sub-blocks from the front of `BUF` to the queue until fewer than 255 bytes are
left. -/
theorem drainLoop_spec (fuel : Nat) (buf : List Byte) (queue : List OutWord) (hf : buf.length / 255 ≤ fuel) :
    ∃ (blocks : List (List Byte)) (rest : List Byte), (∀ b ∈ blocks, b.length = 255) ∧ rest.length < 255 ∧
      buf = blocks.flatten ++ rest ∧ drainLoop fuel buf queue = (rest, queue ++ blocks.flatMap subBlock) := by
  induction fuel generalizing buf queue with
  | zero =>
    exact ⟨[], buf, by simp, by omega, by simp, by simp [drainLoop]⟩
  | succ f ih =>
    by_cases h : 255 ≤ buf.length
    · obtain ⟨blocks, rest, hb, hr, he, hd⟩ :=
        ih (buf.drop 255) (queue ++ subBlock (buf.take 255)) (by rw [List.length_drop]; omega)
      refine ⟨buf.take 255 :: blocks, rest, ?_, hr, ?_, ?_⟩
      · intro b hm
        rcases List.mem_cons.mp hm with rfl | hm
        · simp; omega
        · exact hb b hm
      · rw [List.flatten_cons, List.append_assoc, ← he, List.take_append_drop]
      · rw [drainLoop, if_pos (by simpa using h)]
        simp only [Config.subblockMax]
        rw [hd]
        simp
    · exact ⟨[], buf, by simp, by omega, by simp, by rw [drainLoop_short _ _ (by omega)]; simp⟩

/-- How many bytes blocks of 255 hold. -/
theorem flatten_length {blocks : List (List Byte)} (h : ∀ b ∈ blocks, b.length = 255) :
    blocks.flatten.length = 255 * blocks.length := by
  induction blocks with
  | nil => rfl
  | cons b t ih =>
    rw [List.flatten_cons, List.length_append, h b (by simp), ih fun x hx => h x (by simp [hx])]
    simp; omega

/-- Fewer than 255 bytes: one sub-block, or none. -/
theorem frame_short {data : List Byte} (h : data.length < 255) :
    frame data = if 0 < data.length then BitVec.ofNat 8 data.length :: data else [] := by
  have h0 : data.length / 255 = 0 := by omega
  simp [frame, h0, Nat.mod_eq_of_lt h]

/-- The first 255 bytes make the first sub-block. -/
theorem frame_block {b data : List Byte} (hb : b.length = 255) :
    frame (b ++ data) = (0xFF#8 :: b) ++ frame data := by
  have hq : (b ++ data).length / 255 = data.length / 255 + 1 := by simp [hb]
  have hr : (b ++ data).length % 255 = data.length % 255 := by simp [hb]
  have hdrop : ∀ j, (b ++ data).drop (255 * (j + 1)) = data.drop (255 * j) := by
    intro j
    rw [show 255 * (j + 1) = b.length + 255 * j by omega, List.drop_append]
    simp
  unfold frame
  rw [hq, hr, List.range_succ_eq_map, List.flatMap_cons, hdrop]
  simp only [List.flatMap_map, Nat.succ_eq_add_one, hdrop]
  simp [hb]

/-- Blocks of 255 bytes make the first sub-blocks. -/
theorem frame_blocks {blocks : List (List Byte)} (h : ∀ b ∈ blocks, b.length = 255) (data : List Byte) :
    plainWords (frame (blocks.flatten ++ data)) = blocks.flatMap subBlock ++ plainWords (frame data) := by
  induction blocks with
  | nil => simp
  | cons b t ih =>
    have hb : b.length = 255 := h b (by simp)
    rw [List.flatten_cons, List.append_assoc, frame_block hb, plainWords_append, ih fun x hx => h x (by simp [hx]),
      List.flatMap_cons, subBlock_full hb, List.append_assoc]

/-- A byte is made of its own bits. -/
theorem byteOfBits_codeBits (v w : Nat) (hv : v < 2 ^ w) : byteOfBits (codeBits v w) = BitVec.ofNat 8 v := by
  have key : ∀ w v, v < 2 ^ w → (codeBits v w).foldr (fun b n => b.toNat + 2 * n) 0 = v := by
    intro w
    induction w with
    | zero => intro v h; simp at h; simp [h]
    | succ k ih =>
      intro v h
      have hs : codeBits v (k + 1) = v.testBit 0 :: codeBits (v / 2) k := by
        rw [Nat.add_comm, codeBits_add]
        simp [codeBits, Nat.shiftRight_eq_div_pow]
      rw [hs, List.foldr_cons, ih _ (by rw [Nat.pow_succ] at h; omega), Nat.testBit_zero]
      rcases Nat.mod_two_eq_zero_or_one v with hm | hm <;> simp [hm] <;> omega
  rw [byteOfBits, key w v hv]

/-- Whole bytes at the front of a bit stream come out as they are. -/
theorem packBits_bytes (bytes : List Byte) (bits : List Bool) :
    packBits (byteBits bytes ++ bits) = bytes ++ packBits bits := by
  induction bytes with
  | nil => simp
  | cons a t ih =>
    have hl : (byteBits (a :: t) ++ bits).length = 8 + (byteBits t ++ bits).length := by simp only [byteBits_cons, List.length_append, codeBits_length]; omega
    have hn : ((byteBits (a :: t) ++ bits).length + 7) / 8 = ((byteBits t ++ bits).length + 7) / 8 + 1 := by omega
    have hdrop : ∀ n, (byteBits (a :: t) ++ bits).drop (8 * (n + 1)) = (byteBits t ++ bits).drop (8 * n) := by
      intro n
      rw [byteBits_cons, List.append_assoc, show 8 * (n + 1) = (codeBits a.toNat 8).length + 8 * n by
        rw [codeBits_length]; omega, List.drop_append]
      simp
    rw [List.cons_append, ← ih]
    unfold packBits
    rw [hn, List.range_succ_eq_map, List.map_cons, List.map_map]
    refine congrArg₂ List.cons ?_ ?_
    · rw [byteBits_cons, List.append_assoc]
      simp only [Nat.mul_zero, List.drop_zero]
      rw [List.take_append_of_le_length (by simp), List.take_of_length_le (by simp),
        byteOfBits_codeBits _ _ a.isLt]
      simp
    · refine List.map_congr_left fun n _ => ?_
      simp only [Function.comp, Nat.succ_eq_add_one, hdrop]

/-- Fewer than eight bits: one byte, or none. -/
theorem packBits_short {bits : List Bool} (h : bits.length < 8) :
    packBits bits = if bits = [] then [] else [byteOfBits bits] := by
  by_cases hb : bits = []
  · simp [packBits, hb]
  · have : 0 < bits.length := List.length_pos_iff.mpr hb
    have h1 : (bits.length + 7) / 8 = 1 := by omega
    rw [if_neg hb, packBits, h1]
    simp [List.range_succ, List.take_of_length_le (show bits.length ≤ 8 by omega)]

end Sys2Proof.Laws
end

