-- ==== Sys2Proof/Laws/Packer.lean ====
section
/-! SUPPORT. What each operation of the Bit Packer and of the Sub-block Emitter can do, once each (spec 41_bit_packer.md,
44_subblock.md). -/

namespace Sys2Proof.Laws

open Sys2Proof.Machine Sys2Proof.Reference Sys2Proof.Safety

theorem pendingBits_eq (s : State) :
    pendingBits s = byteBits s.buf ++ codeBits s.acc.toNat s.nb.toNat := rfl

/-- WriteBits (R100): the code's bits join the pending ones, whole bytes go to `BUF`. -/
theorem writeBits_spec (v w : Nat) (s : State) (ha : s.acc.toNat < 2 ^ s.nb.toNat) :
    ∃ more : List Byte, (writeBits v w s).buf = s.buf ++ more ∧ more.length = (s.nb.toNat + w) / 8 ∧
      (writeBits v w s).nb.toNat = (s.nb.toNat + w) % 8 ∧
      (writeBits v w s).acc.toNat < 2 ^ (writeBits v w s).nb.toNat ∧
      byteBits more ++ codeBits (writeBits v w s).acc.toNat (writeBits v w s).nb.toNat =
        codeBits s.acc.toNat s.nb.toNat ++ codeBits v w := by
  obtain ⟨more, acc', he, hl, hlt, hb⟩ :=
    emitBytes_spec (s.nb.toNat + w) (s.acc.toNat ||| ((v &&& mask w) <<< s.nb.toNat)) (s.nb.toNat + w) s.buf
      (Nat.div_le_self _ _) (merge_lt ha v w)
  have h8 : (s.nb.toNat + w) % 8 < 8 := Nat.mod_lt _ (by omega)
  have hacc : acc' < 256 :=
    Nat.lt_of_lt_of_le hlt (Nat.pow_le_pow_right (n := 2) (by omega) (show _ ≤ 8 by omega))
  have e1 : (writeBits v w s).buf = s.buf ++ more := by simp only [writeBits, he]
  have e2 : (writeBits v w s).nb.toNat = (s.nb.toNat + w) % 8 := by
    simp only [writeBits, he, BitVec.toNat_ofNat]
    exact Nat.mod_eq_of_lt h8
  have e3 : (writeBits v w s).acc.toNat = acc' := by
    simp only [writeBits, he, BitVec.toNat_ofNat]
    exact Nat.mod_eq_of_lt hacc
  refine ⟨more, e1, hl, e2, ?_, ?_⟩
  · rw [e2, e3]; exact hlt
  · rw [e2, e3, hb, codeBits_merge ha]

/-- Drain (R180): whole 255-byte sub-blocks move from the front of `BUF` to the queue, until fewer than 255 bytes are
left. -/
theorem drain_spec (s : State) :
    ∃ (blocks : List (List Byte)) (rest : List Byte), (∀ b ∈ blocks, b.length = 255) ∧ rest.length < 255 ∧
      s.buf = blocks.flatten ++ rest ∧
      drain s = { s with buf := rest, outQueue := s.outQueue ++ blocks.flatMap subBlock } := by
  obtain ⟨blocks, rest, h1, h2, h3, h4⟩ :=
    drainLoop_spec s.buf.length s.buf s.outQueue (Nat.div_le_self _ _)
  exact ⟨blocks, rest, h1, h2, h3, by simp only [drain, h4]⟩

/-- WriteCode (R103): the code's bits, at the width `CS`, join the stream; whole sub-blocks leave for the queue. -/
theorem writeCode_spec (v : Nat) (s : State) (ha : s.acc.toNat < 2 ^ s.nb.toNat) :
    ∃ (blocks : List (List Byte)), (∀ b ∈ blocks, b.length = 255) ∧
      (writeCode v s).outQueue = s.outQueue ++ blocks.flatMap subBlock ∧
      (writeCode v s).buf.length < 255 ∧
      255 * blocks.length + (writeCode v s).buf.length = s.buf.length + (s.nb.toNat + s.cs.toNat) / 8 ∧
      (writeCode v s).nb.toNat = (s.nb.toNat + s.cs.toNat) % 8 ∧
      (writeCode v s).acc.toNat < 2 ^ (writeCode v s).nb.toNat ∧
      byteBits blocks.flatten ++ pendingBits (writeCode v s) = pendingBits s ++ codeBits v s.cs.toNat := by
  obtain ⟨more, hbuf, hlen, hnb, hacc, hbits⟩ := writeBits_spec v s.cs.toNat s ha
  obtain ⟨blocks, rest, hb, hr, hsplit, hd⟩ := drain_spec (writeBits v s.cs.toNat s)
  have ebuf : (writeCode v s).buf = rest := by rw [writeCode, hd]
  refine ⟨blocks, hb, ?_, by rw [ebuf]; exact hr, ?_, ?_, ?_, ?_⟩
  · rw [writeCode, hd]; rfl
  · have := congrArg List.length hsplit
    rw [hbuf, List.length_append, List.length_append, flatten_length hb, hlen] at this
    rw [ebuf]
    omega
  · rw [writeCode_nb]; exact hnb
  · rw [writeCode_nb, writeCode_acc]; exact hacc
  · rw [pendingBits_eq, pendingBits_eq, writeCode_nb, writeCode_acc, ebuf, ← List.append_assoc, ← byteBits_append,
      ← hsplit, hbuf, byteBits_append, List.append_assoc, List.append_assoc, hbits]

end Sys2Proof.Laws
end

