-- ==== Sys2Proof/Laws/PerInstr.lean ====
section
/-! SUPPORT. Facts about every command, one lemma for each (spec 30_encoding.md R70, R71). -/

namespace Sys2Proof.Laws.TableRow

/-- The match and mask of a command's row of the opcode table. -/
def row : Instr → CmdWord × CmdWord
  | .start _ => (0x01000000#32, 0xFFFF0000#32)
  | .push _ => (0x02000000#32, 0xFFFFFF00#32)
  | .endStream => (0x03000000#32, 0xFFFFFFFF#32)

/-- A command's word shows its row's fixed bits. -/
def Statement (i : Instr) : Prop := encode i &&& (row i).2 = (row i).1

theorem start (cc : BitVec 16) : Statement (.start cc) := by
  refine BitVec.eq_of_getLsbD_eq fun j hj => ?_
  simp only [encode, row, BitVec.getLsbD_and, BitVec.getLsbD_append]
  rcases Nat.lt_or_ge j 16 with h | h
  · have : (0xFFFF0000#32).getLsbD j = false ∧ (0x01000000#32).getLsbD j = false := by
      have key : ∀ k : Fin 16, (0xFFFF0000#32).getLsbD k = false ∧ (0x01000000#32).getLsbD k = false := by decide
      exact key ⟨j, h⟩
    simp [this]
  · have key : ∀ k : Fin 32, 16 ≤ k.val →
        ((if k.val - 16 < 8 then (0#8).getLsbD (k.val - 16) else (0x01#8).getLsbD (k.val - 16 - 8)) &&
          (0xFFFF0000#32).getLsbD k) = (0x01000000#32).getLsbD k := by decide
    have := key ⟨j, hj⟩ h
    simpa [Nat.not_lt.mpr h] using this

theorem push (i : Byte) : Statement (.push i) := by
  refine BitVec.eq_of_getLsbD_eq fun j hj => ?_
  simp only [encode, row, BitVec.getLsbD_and, BitVec.getLsbD_append]
  rcases Nat.lt_or_ge j 8 with h | h
  · have : (0xFFFFFF00#32).getLsbD j = false ∧ (0x02000000#32).getLsbD j = false := by
      have key : ∀ k : Fin 8, (0xFFFFFF00#32).getLsbD k = false ∧ (0x02000000#32).getLsbD k = false := by decide
      exact key ⟨j, h⟩
    simp [this]
  · have key : ∀ k : Fin 32, 8 ≤ k.val →
        ((if k.val - 8 < 16 then (0#16).getLsbD (k.val - 8) else (0x02#8).getLsbD (k.val - 8 - 16)) &&
          (0xFFFFFF00#32).getLsbD k) = (0x02000000#32).getLsbD k := by decide
    have := key ⟨j, hj⟩ h
    simpa [Nat.not_lt.mpr h] using this

theorem endStream : Statement .endStream := by
  unfold Statement
  decide

end Sys2Proof.Laws.TableRow
end

