-- ==== Sys2Proof/Laws/Step.lean ====
section
/-! SUPPORT. What a step can do, said once (spec 10_state.md R20, 70_reset_and_hazards.md R234), and induction over steps
packaged once. -/

namespace Sys2Proof.Laws

open Sys2Proof.Machine

/-- Every output queue holds the worst case of one command (log entry 1). -/
theorem worst_le_depth : Config.worstCommand ≤ Config.outQueueDepth := by
  unfold Config.outQueueDepth
  exact Nat.le_add_left _ _

/-- A word is accepted where the output queue has room for what it may produce. -/
theorem canAccept_iff (word : CmdWord) (s : State) :
    canAccept word s = true ↔ s.outQueue.length + mayProduce word s ≤ Config.outQueueDepth := by
  have h := worst_le_depth
  simp only [canAccept, Bool.or_eq_true, decide_eq_true_eq]
  omega

/-- An accepted word: its command's effect, or an illegal word's. -/
theorem runWord_cases (word : CmdWord) (s : State) :
    ∃ t, runWord word s = .next t ∧
      ((∃ i, decode word = .instr i ∧ exec i s = .next t) ∨
        (∃ why, decode word = .illegal why ∧
          ((s.state = .fault ∧ t = s) ∨ (s.state ≠ .fault ∧ t = raiseFault .illegal s)))) := by
  unfold runWord
  cases hd : decode word with
  | instr i =>
    obtain ⟨t, ht, _⟩ := exec_went i s
    exact ⟨t, ht, .inl ⟨i, rfl, ht⟩⟩
  | illegal why =>
    by_cases hs : s.state = .fault
    · exact ⟨s, by simp [execIllegal, hs], .inr ⟨why, rfl, .inl ⟨hs, rfl⟩⟩⟩
    · exact ⟨raiseFault .illegal s, by simp [execIllegal, hs], .inr ⟨why, rfl, .inr ⟨hs, rfl⟩⟩⟩

theorem acceptNext_some {s s' : State} {word : CmdWord} (h : acceptNext s = some (word, s')) :
    ∃ rest, s.cmds = word :: rest ∧ canAccept word s = true ∧ s' = { s with cmds := rest } := by
  unfold acceptNext at h
  cases hc : s.cmds with
  | nil => rw [hc] at h; simp at h
  | cons w rest =>
    rw [hc] at h
    by_cases ha : canAccept w s = true
    · simp only [ha, if_true, Option.some.injEq, Prod.mk.injEq] at h
      exact ⟨rest, by rw [← h.1], by rw [← h.1]; exact ha, h.2.symm⟩
    · simp [ha] at h

/-- No word may produce more than the worst case of R236. -/
theorem mayProduce_le (word : CmdWord) (s : State) : mayProduce word s ≤ Config.worstCommand := by
  unfold mayProduce
  split <;> simp

/-- A step in which the oldest waiting word is accepted. -/
theorem step_accept {s : State} {word : CmdWord} {rest : List CmdWord} (hc : s.cmds = word :: rest)
    (h : s.outQueue.length + mayProduce word s ≤ Config.outQueueDepth) :
    step s = runWord word { s with cmds := rest } := by
  have ha := (canAccept_iff word s).mpr h
  simp [step, acceptNext, hc, ha]

/-- A step accepts and performs the oldest waiting word, or is an action of the host. -/
theorem step_cases (s : State) :
    (∃ word rest t, s.cmds = word :: rest ∧ canAccept word s = true ∧
        step s = runWord word { s with cmds := rest } ∧ step s = .next t) ∨
      (acceptNext s = none ∧ step s = .next (hostNext s)) := by
  unfold step
  cases h : acceptNext s with
  | none => exact .inr ⟨rfl, rfl⟩
  | some p =>
    obtain ⟨word, s'⟩ := p
    obtain ⟨rest, h1, h2, rfl⟩ := acceptNext_some h
    obtain ⟨t, ht, _⟩ := runWord_cases word { s with cmds := rest }
    exact .inl ⟨word, rest, t, h1, h2, rfl, ht⟩

/-- What the host's next action does. -/
theorem hostNext_cases (s : State) :
    (s.host = [] ∧ hostNext s = s) ∨
      (∃ word rest, s.host = .write word :: rest ∧ hostNext s = { s with host := rest, cmds := s.cmds ++ [word] }) ∨
      (∃ rest, s.host = .take :: rest ∧ s.outQueue = [] ∧ hostNext s = { s with host := rest }) ∨
      (∃ rest o queue, s.host = .take :: rest ∧ s.outQueue = o :: queue ∧
        hostNext s = { s with host := rest, outQueue := queue, taken := s.taken ++ [o] }) ∨
      (∃ rest, s.host = .readStatus :: rest ∧
        hostNext s = { s with host := rest, statusLog := s.statusLog ++ [s.statusWord] }) ∨
      (∃ rest, s.host = .reset :: rest ∧ hostNext s = { State.reset with host := rest }) := by
  unfold hostNext
  rcases hh : s.host with _ | ⟨a, rest⟩
  · exact .inl ⟨rfl, rfl⟩
  · refine .inr ?_
    cases a with
    | write word => exact .inl ⟨word, rest, rfl, rfl⟩
    | take =>
      refine .inr ?_
      rcases hq : s.outQueue with _ | ⟨o, queue⟩
      · exact .inl ⟨rest, rfl, rfl, by simp [hostAct, takeWord]⟩
      · exact .inr (.inl ⟨rest, o, queue, rfl, rfl, by simp [hostAct, takeWord]⟩)
    | readStatus => exact .inr (.inr (.inr (.inl ⟨rest, rfl, rfl⟩)))
    | reset => exact .inr (.inr (.inr (.inr ⟨rest, rfl, rfl⟩)))

/-- What holds of a state and is kept by every step holds after any number of steps. -/
theorem run_keeps {P : State → Prop} (hstep : ∀ s t, P s → step s = .next t → P t) (n : Nat) {s t : State} (hs : P s)
    (h : core.run n s = .next t) : P t := by
  induction n generalizing s with
  | zero =>
    cases h
    exact hs
  | succ k ih =>
    have hrun : core.run (k + 1) s = _ := Host.Core.run.eq_2 core s k
    rw [hrun] at h
    rcases step_cases s with ⟨_, _, s', _, _, _, hs'⟩ | ⟨_, hs'⟩
    · rw [show core.step s = .next s' from hs'] at h
      exact ih (hstep s s' hs hs') h
    · rw [show core.step s = .next (hostNext s) from hs'] at h
      exact ih (hstep s _ hs hs') h

end Sys2Proof.Laws
end

