-- ==== Sys2Proof/Tests/Slice0.lean ====
section
/-! SUPPORT. Tests with results from spec/ (each names its source), the refusals of WellFormed, and for every statement with
hypotheses a state and operands that meet them all. -/

namespace Sys2Proof.Tests

open Sys2Proof.Machine Sys2Proof.Safety Sys2Proof.Laws

/-! ### Helpers -/

/-- The next state of an outcome. -/
def nextOf : Host.Outcome State Fault Refusal → Option State
  | .next s => some s
  | .fault _ => none
  | .refused _ => none

/-- After `START 4` from reset. -/
def armed4 : State := openJob 4 State.reset

/-- After `START 4; PUSH 0` (95_test_vectors.md T-DRV-3, written out). -/
def scanning4 : State :=
  { armed4 with
    state := .scanning, w := 0, acc := 0x4, nb := 3, outQueue := [{ byte := 0x02, last := false }] }

/-- A state in SCANNING that is about to allocate `k` at width `cs`: the registers a mismatch looks at. -/
def aboutToAllocate (k : BitVec 13) (cs : BitVec 4) : State :=
  { scanning4 with nc := k, cs := cs }

/-- A finished job (R30). -/
def done4 : State := { armed4 with state := .done }

/-- A fault raised in IDLE (T-DRV-1, cc = 257). -/
def faulted : State := { State.reset with state := .fault, err := .colorRange }

/-- END waits, in SCANNING. -/
def waiting (queue : List OutWord) (acts : List HostAction) : State :=
  { scanning4 with outQueue := queue, cmds := [0x03000000#32], host := acts }

/-- As many words as the output queue holds. -/
def fullQueue : List OutWord := List.replicate Config.outQueueDepth { byte := 0x00, last := false }

/-! ### Decoding: words written bit by bit from the table of R70 -/

theorem test_decode_start : decode 0b00000001_00000000_00000000_00000100#32 = .instr (.start 4) := by decide

theorem test_decode_start_high_byte : decode 0b00000001_00000000_00000001_00000000#32 = .instr (.start 256) := by decide

theorem test_decode_push : decode 0b00000010_00000000_00000000_11001000#32 = .instr (.push 200) := by decide

theorem test_decode_end : decode 0b00000011_00000000_00000000_00000000#32 = .instr .endStream := by decide

theorem test_decode_opcode_zero : decode 0x00000000#32 = .illegal .opcode := by decide

theorem test_decode_opcode_four : decode 0x04000000#32 = .illegal .opcode := by decide

/-- START's reserved bits 23:16 (R72), its lowest and its highest. -/
theorem test_decode_start_reserved :
    decode 0x01010004#32 = .illegal .reservedBit ∧ decode 0x01800004#32 = .illegal .reservedBit := by decide

/-- PUSH's reserved bits 23:8 (R73; T-DRV-17). -/
theorem test_decode_push_reserved :
    decode 0x02000104#32 = .illegal .reservedBit ∧ decode 0x02800004#32 = .illegal .reservedBit := by decide

/-- END's reserved bits 23:0 (R74). -/
theorem test_decode_end_reserved :
    decode 0x03000001#32 = .illegal .reservedBit ∧ decode 0x03800000#32 = .illegal .reservedBit := by decide

theorem test_decode_table_words :
    decodeTableWord 32 0x01000004 = some (.start 4) ∧ decodeTableWord 32 0x020000FF = some (.push 255) ∧
      decodeTableWord 32 0x03000000 = some .endStream ∧ decodeTableWord 32 0x00000000 = none := by decide

/-! ### WellFormed refuses, one term for each check (R76, R77) -/

theorem test_start_operand_too_big : (AsmLine.start 65536).wellFormed = false := by decide

theorem test_push_operand_too_big : (AsmLine.push 256).wellFormed = false := by decide

theorem test_pushs_lists_none : (AsmLine.pushs []).wellFormed = false := by decide

theorem test_pushs_operand_too_big : (AsmLine.pushs [0, 256]).wellFormed = false := by decide

theorem test_encode_color_too_big : (AsmLine.encode 65536 [0]).wellFormed = false := by decide

theorem test_encode_index_too_big : (AsmLine.encode 4 [0, 256]).wellFormed = false := by decide

/-- An ill-formed line makes no word (R76). -/
theorem test_refused_line_makes_no_word : (AsmLine.start 65536).assemble = none := by decide

/-! ### The assembler's text (T-PRG-1, T-PRG-3, R77) -/

theorem test_assemble_start_comment :
    assembleLine ['S', 'T', 'A', 'R', 'T', ' ', '4', ' ', ';', ' ', 'x'] = some [0x01000004#32] := by decide

theorem test_assemble_push_hex :
    assembleLine ['P', 'U', 'S', 'H', ' ', ' ', '0', 'x', 'f', 'F'] = some [0x020000FF#32] := by decide

theorem test_assemble_encode :
    assembleLine ['E', 'N', 'C', 'O', 'D', 'E', ' ', '4', ',', ' ', '0', ',', '3'] =
      some [0x01000004#32, 0x02000000#32, 0x02000003#32, 0x03000000#32] := by decide

theorem test_assemble_encode_no_index :
    assembleLine ['E', 'N', 'C', 'O', 'D', 'E', ' ', '4'] = some [0x01000004#32, 0x03000000#32] := by decide

theorem test_assemble_out_of_range : assembleLine ['P', 'U', 'S', 'H', ' ', '2', '5', '6'] = none := by decide

/-! ### START (T-DRV-1) -/

theorem test_start_100 :
    (nextOf (exec (.start 100) State.reset)).map (fun t => (t.statusWord, t.c, t.outQueue)) =
      some (0x00667801#32, 100#9, []) := by decide

theorem test_start_257 :
    (nextOf (exec (.start 257) State.reset)).map State.statusWord = some 0x00000034#32 := by decide

/-! ### PUSH (T-DRV-3, T-DRV-5) -/

theorem test_first_push : nextOf (exec (.push 0) armed4) = some scanning4 := by decide

theorem test_mismatching_push :
    (nextOf (exec (.push 1) scanning4)).map (fun t => (t.statusWord, t.w, t.acc, t.nb, dictLookup t.dict [0, 1])) =
      some (0x00072302#32, 1#12, 0x04#8, 6#3, some 6) := by decide

/-! ### END (T-SRC-7) -/

theorem test_end_one_pixel :
    (nextOf (exec .endStream scanning4)).map (fun t => (t.statusWord, t.out.map OutWord.portWord)) =
      some (0x00062303#32, [0x002#9, 0x002#9, 0x044#9, 0x001#9, 0x100#9]) := by decide

/-- END in ARMED (T-SRC-6). -/
theorem test_end_empty :
    (nextOf (exec .endStream armed4)).map (fun t => (t.statusWord, t.out)) = some (0x00062314#32, []) := by decide

/-! ### Packer, dictionary, framer -/

/-- T-BP-2. -/
theorem test_write_bits :
    (fun t : State => (t.acc, t.nb, t.buf)) (writeBits 0x1FF 9 { State.reset with acc := 0x4, nb := 3 }) =
      (0xF#8, 4#3, [0xFC#8]) := by decide

/-- T-BP-6. -/
theorem test_flush :
    (fun t : State => (t.acc, t.nb, t.buf)) (flush { State.reset with acc := 0x7F, nb := 7, buf := [0x11] }) =
      (0#8, 0#3, [0x11#8, 0x7F#8]) := by decide

/-- T-DIC-3, T-DIC-4. -/
theorem test_dictionary :
    dictLookup armed4.dict [2] = some 2 ∧ dictLookup armed4.dict [0, 1] = none ∧
      dictLookup (dictInsert 0 1 6 armed4).dict [0, 1] = some 6 ∧
      dictLookup (dictInsert 0 1 6 armed4).dict [1, 0] = none := by decide

/-- T-SB-4. -/
theorem test_final_frame :
    (finalFrame { State.reset with buf := [0x44, 0x01] }).outQueue.map OutWord.portWord =
      [0x002#9, 0x044#9, 0x001#9, 0x100#9] := by decide

/-- T-SB-3: exactly 255 bytes drain completely. -/
theorem test_drain_255 :
    (fun t : State => (t.buf, t.outQueue.length)) (drain { State.reset with buf := List.replicate 255 0x11 }) =
      ([], 256) := by decide +kernel

/-! ### Ports and steps -/

/-- T-PRG-1, its first word, fetched right after reset. -/
theorem test_step_start :
    (nextOf (step (State.reset.withFetchWord 32 0x01000004))).map State.statusWord = some 0x00062301#32 := by decide

/-- PUSH and END with no job (R205), fetched right after reset. -/
theorem test_step_push_and_end :
    (nextOf (step (State.reset.withFetchWord 32 0x02000000))).map State.statusWord = some 0x00000044#32 ∧
      (nextOf (step (State.reset.withFetchWord 32 0x03000000))).map State.statusWord = some 0x00000044#32 := by decide

/-! ### Witnesses: states and operands that meet the hypotheses of the statements -/

theorem room (n : Nat) (h : n ≤ Config.worstCommand) : n ≤ Config.outQueueDepth :=
  Nat.le_trans h worst_le_depth

theorem armed4_job : JobOk armed4 where
  c_range := by decide
  mcs_eq := by decide
  nc_range := by decide
  cs_eq := by decide
  dict_ok :=
    { literals_first := by decide
      codes := by decide
      extends_earlier := by decide
      keys_distinct := by decide }

theorem armed4_inv : Inv armed4 where
  err_iff := by decide
  acc_lt := by decide
  buf_le := by decide
  queue_le := room _ (by decide)
  idle := by intro h; cases h
  job := fun _ => armed4_job
  armed := fun _ => ⟨rfl, by decide, rfl, rfl, rfl⟩
  scanning := by intro h; cases h
  done := by intro h; cases h

theorem scanning4_job : JobOk scanning4 :=
  ⟨armed4_job.c_range, armed4_job.mcs_eq, armed4_job.nc_range, armed4_job.cs_eq, armed4_job.dict_ok⟩

theorem scanning4_inv : Inv scanning4 where
  err_iff := by decide
  acc_lt := by decide
  buf_le := by decide
  queue_le := room _ (by decide)
  idle := by intro h; cases h
  job := fun _ => scanning4_job
  armed := by intro h; cases h
  scanning := fun _ => by decide
  done := by intro h; cases h

/-! A dictionary of four colors filled up: each entry extends the one before it by the index 0. -/

/-- The code entered last, after `n` entries. -/
def lastGrown (n : Nat) : Code := if n = 0 then 0#12 else BitVec.ofNat 12 (n + 5)

/-- The literals `[0]` to `[3]` and `n` entries more. -/
def grown : Nat → List DictEntry
  | 0 => literals 4
  | n + 1 => grown n ++ [{ pre := some (lastGrown n), suffix := 0#8, code := BitVec.ofNat 12 (6 + n) }]

/-- No entry extends a sequence that is not there yet. -/
theorem find_unused {nc : Nat} {d : List DictEntry} (h : DictOk 4 nc d) {k : Code} (h4 : 4 ≤ k.toNat)
    (hk : nc ≤ k.toNat) (i : Byte) : dictFind d (some k) i = none := by
  cases hf : dictFind d (some k) i with
  | none => rfl
  | some c =>
    obtain ⟨e, he, hp, _, _⟩ := dictFind_entry hf
    rcases dictOk_entry_cases h he with hl | ⟨p, hm, hp', _⟩
    · rw [literals_pre hl] at hp
      cases hp
    · rw [hp] at hp'
      cases hp'
      have := dictOk_code_bounds h hm
      omega

theorem grown_ok (n : Nat) (hn : n ≤ 4089) :
    DictOk 4 (6 + n) (grown n) ∧ lastGrown n ∈ dictCodes (grown n) ∧ dictFind (grown n) (some (lastGrown n)) 0#8 = none := by
  induction n with
  | zero => exact ⟨dictOk_literals (by decide), by decide, dictFind_literals_some _ _ _⟩
  | succ n ih =>
    obtain ⟨h1, h2, h3⟩ := ih (by omega)
    have hl : lastGrown (n + 1) = BitVec.ofNat 12 (6 + n) := by
      rw [lastGrown, if_neg (Nat.succ_ne_zero n)]
      congr 1
      omega
    have hv : (BitVec.ofNat 12 (6 + n)).toNat = 6 + n := by rw [BitVec.toNat_ofNat]; omega
    have hne : lastGrown n ≠ BitVec.ofNat 12 (6 + n) := by
      intro he
      have := dictOk_code_bounds h1 h2
      rw [he, hv] at this
      omega
    refine ⟨dictOk_insert h1 h2 h3 (by omega) (by simp only [Config.lastCode]; omega), ?_, ?_⟩
    · rw [hl]
      simp [dictCodes, grown]
    · rw [hl, grown, dictFind_append, find_unused h1 (by omega) (by omega), dictFind_single, if_neg]
      · rfl
      · intro hc
        exact hne (Option.some.inj hc.1)

theorem grown_one (n : Nat) : dictLookup (grown n) [1#8] = some 1#12 := by
  rw [dictLookup_single]
  induction n with
  | zero => decide
  | succ n ih => rw [grown, dictFind_append, ih]; rfl

theorem grown_one_one (n : Nat) : dictLookup (grown n) ([1#8] ++ [1#8]) = none := by
  rw [dictLookup_concat (List.cons_ne_nil _ _), grown_one, Option.bind_some]
  induction n with
  | zero => decide
  | succ n ih => rw [grown, dictFind_append, ih, dictFind_single, if_neg (by simp)]; rfl

/-- In SCANNING with the next mismatch to allocate 4095. -/
def ceiling4 : State := { scanning4 with nc := 4095#13, cs := 12#4, w := 1#12, dict := grown 4089 }

theorem ceiling4_inv : Inv ceiling4 where
  err_iff := by decide
  acc_lt := by decide
  buf_le := by decide
  queue_le := room _ (by decide)
  idle := by intro h; cases h
  job := fun _ => ⟨by decide, by decide, by decide, by decide, (grown_ok 4089 (Nat.le_refl _)).1⟩
  armed := by intro h; cases h
  scanning := fun _ => dictLookup_mem (grown_one 4089)
  done := by intro h; cases h

theorem fullQueue_length : fullQueue.length = Config.outQueueDepth := List.length_replicate

theorem mayProduce_waiting (queue : List OutWord) (acts : List HostAction) :
    mayProduce 0x03000000#32 (waiting queue acts) = Config.worstCommand := by
  unfold mayProduce
  rw [show decode 0x03000000#32 = .instr .endStream from by decide]
  rfl

theorem waits (acts : List HostAction) : acceptNext (waiting fullQueue acts) = none := by
  have h := room _ (Nat.le_refl Config.worstCommand)
  have hp : 0 < Config.worstCommand := by decide
  have hc : canAccept 0x03000000#32 (waiting fullQueue acts) = false := by
    simp only [canAccept, mayProduce_waiting, Bool.or_eq_false_iff, decide_eq_false_iff_not, Nat.not_le]
    have hq : (waiting fullQueue acts).outQueue.length = Config.outQueueDepth := fullQueue_length
    omega
  unfold acceptNext
  rw [show (waiting fullQueue acts).cmds = [0x03000000#32] from rfl]
  simp only [hc]
  rfl

/-- One word for each way to be illegal (its opcode below, between and above; each reserved field's lowest bit), and one that
is not. -/
theorem witness_IllegalWordsRaiseIllegal :
    ([0x00000000#32, 0x04000000#32, 0xFF000000#32].all fun w => w.toNat / 2 ^ 24 ∉ [1, 2, 3]) = true ∧
      (0x01010000#32).toNat / 2 ^ 16 % 2 ^ 8 ≠ 0 ∧ (0x02000100#32).toNat / 2 ^ 8 % 2 ^ 16 ≠ 0 ∧
      (0x03000001#32).toNat % 2 ^ 24 ≠ 0 ∧ (0x0100FFFF#32).toNat / 2 ^ 16 % 2 ^ 8 = 0 := by decide

theorem witness_PseudoInstructionsExpand : ([0] : List Nat) ≠ [] ∧ ([0, 256] : List Nat) ≠ [] := by decide

theorem witness_AssemblerLinesMakeTheirCommand : (65535 : Nat) ≤ 65535 ∧ (255 : Nat) ≤ 255 := by decide

/-- Queued output and a waiting word are there to be discarded. -/
theorem witness_ResetInputDiscardsEverything :
    ∃ s rest, acceptNext s = none ∧ s.host = .reset :: rest ∧ 0 < s.outQueue.length ∧ s.cmds ≠ [] :=
  ⟨waiting fullQueue [.reset], [], waits _, rfl, Nat.lt_of_lt_of_eq (room 1 (by decide)) fullQueue_length.symm,
    by decide⟩

/-- The highest `NC` between commands. -/
theorem witness_StatusWordFields : (aboutToAllocate 4095 12).nc.toNat ≤ 4095 := by decide

theorem witness_StatusReadChangesNothing :
    ∃ s rest, acceptNext s = none ∧ s.host = .readStatus :: rest :=
  ⟨{ scanning4 with host := [.readStatus] }, [], rfl, rfl⟩

/-- Both states, the lowest and the highest color count. -/
theorem witness_StartOpensJob :
    State.reset.state = .idle ∧ done4.state = .done ∧ max (0#16).toNat 4 ≤ 256 ∧ max (256#16).toNat 4 ≤ 256 := by decide

theorem witness_StartRaisesOrIsIgnored :
    armed4.state = .armed ∧ scanning4.state = .scanning ∧ State.reset.state = .idle ∧ done4.state = .done ∧
      256 < max (257#16).toNat 4 ∧ faulted.state = .fault := by decide

/-- Every range of the table, at both ends. -/
theorem witness_MinCodeSizeIsLeastWidth :
    State.reset.state = .idle ∧ ([4#16, 5#16, 8#16, 9#16, 16#16, 17#16, 32#16, 33#16, 64#16, 65#16, 128#16, 129#16,
      256#16].all fun cc => max cc.toNat 4 ≤ 256) = true ∧ ∃ t, exec (.start 256#16) State.reset = .next t :=
  ⟨rfl, by decide, (exec_went _ _).imp fun _ h => h.1⟩

theorem witness_JobDoesNotSeeEarlierJobs :
    State.reset.state = .idle ∧ done4.state = .done ∧ State.reset.err = done4.err ∧ max (4#16).toNat 4 ≤ 256 ∧
      ∃ t, Reference.execAll [.start 4, .push 0, .endStream] State.reset = .next t :=
  ⟨rfl, rfl, rfl, by decide, _, rfl⟩

/-- The highest index below `C`. -/
theorem witness_FirstPushEmitsSizeAndClear : Inv armed4 ∧ armed4.state = .armed ∧ (3#8).toNat < armed4.c.toNat :=
  ⟨armed4_inv, rfl, by decide⟩

/-- T-DRV-4: `[0, 0]` is in the dictionary as 6. -/
theorem witness_MatchingPushOnlyMovesW :
    ∃ s : State, s.state = .scanning ∧ (0#8).toNat < s.c.toNat ∧ dictLookup s.dict [0] = some s.w ∧
      dictLookup s.dict ([0] ++ [0]) = some 6 :=
  ⟨dictInsert 0 0 6 scanning4, by decide⟩

/-- The ceiling, the width growth, and neither. -/
theorem witness_MismatchingPushRegisters :
    ∀ s ∈ [aboutToAllocate 4095 12, aboutToAllocate 8 3, aboutToAllocate 6 3],
      s.state = .scanning ∧ (1#8).toNat < s.c.toNat ∧ dictLookup s.dict [0] = some s.w ∧
        dictLookup s.dict ([0] ++ [1]) = none ∧ s.nc.toNat ≤ 4095 := by decide

theorem witness_MismatchingPushWritesCodes :
    ∀ s ∈ [aboutToAllocate 4095 12, scanning4],
      s.acc.toNat < 2 ^ s.nb.toNat ∧ s.state = .scanning ∧ (1#8).toNat < s.c.toNat ∧
        dictLookup s.dict [0] = some s.w ∧ dictLookup s.dict ([0] ++ [1]) = none := by decide

/-- The lowest index that is not below `C`. -/
theorem witness_PushRaisesOrIsIgnored :
    armed4.state = .armed ∧ armed4.c.toNat ≤ (4#8).toNat ∧ scanning4.state = .scanning ∧
      scanning4.c.toNat ≤ (4#8).toNat ∧ State.reset.state = .idle ∧ done4.state = .done ∧ faulted.state = .fault := by
  decide

theorem witness_IndexInRangeNeverFaults :
    armed4.state = .armed ∧ (3#8).toNat < armed4.c.toNat ∧ (aboutToAllocate 4095 12).state = .scanning ∧
      (3#8).toNat < (aboutToAllocate 4095 12).c.toNat := by decide

theorem witness_EndWritesLastCodesAndTerminator :
    scanning4.acc.toNat < 2 ^ scanning4.nb.toNat ∧ scanning4.state = .scanning := by decide

theorem witness_EndRaisesOrIsIgnored :
    armed4.state = .armed ∧ State.reset.state = .idle ∧ done4.state = .done ∧ faulted.state = .fault := by decide

theorem witness_FaultChangesOnlyErrAndState :
    ∃ t, runWord 0x00000000#32 scanning4 = .next t ∧ scanning4.state ≠ .fault ∧ t.state = .fault :=
  ⟨_, rfl, by decide, rfl⟩

/-- With an empty queue, and with a full one. -/
theorem witness_FaultIgnoresEveryWord :
    ∀ queue ∈ [[], fullQueue], ∃ (s : State) (word : CmdWord) (rest : List CmdWord), s.outQueue = queue ∧
      s.state = .fault ∧ s.outQueue.length ≤ Config.outQueueDepth ∧ s.cmds = word :: rest := by
  intro queue h
  refine ⟨{ waiting queue [] with state := .fault }, _, _, rfl, rfl, ?_, rfl⟩
  rcases List.mem_cons.mp h with rfl | h
  · exact Nat.zero_le _
  · rw [List.mem_singleton.mp h]
    exact Nat.le_of_eq fullQueue_length

/-- A step that stays in FAULT, and one that is reset. -/
theorem witness_OnlyResetLeavesFault :
    faulted.state = .fault ∧ (∃ t, step faulted = .next t) ∧ ∃ t, step { faulted with host := [.reset] } = .next t :=
  ⟨rfl, ⟨_, rfl⟩, _, rfl⟩

/-- No bit pending, and the most there can be. -/
theorem witness_WriteBitsAppendsLowBits :
    State.reset.acc.toNat < 2 ^ State.reset.nb.toNat ∧ (0x7F#8).toNat < 2 ^ (7#3).toNat := by decide

theorem witness_FlushCompletesLastByte :
    State.reset.acc.toNat < 2 ^ State.reset.nb.toNat ∧ (0x7F#8).toNat < 2 ^ (7#3).toNat := by decide

theorem witness_DictResetLeavesOnlyLiterals : (4#9).toNat ≤ 256 ∧ (256#9).toNat ≤ 256 := by decide

theorem witness_TableKeyAgreesWithSequence : dictLookup armed4.dict [0] = some 0 := by decide

theorem witness_DictInsertAddsOneSequence :
    JobOk scanning4 ∧ dictLookup scanning4.dict [0] = some scanning4.w ∧ dictLookup scanning4.dict ([0] ++ [1]) = none :=
  ⟨scanning4_job, by decide⟩

theorem witness_DictionaryMapsSequencesOneToOne :
    JobOk scanning4 ∧ dictLookup scanning4.dict [3] = some 3 ∧ (3#8).toNat < scanning4.c.toNat :=
  ⟨scanning4_job, by decide⟩

/-- A step that leaves a job open with `NC = 4095`; and a mismatch at the ceiling, and one below it. -/
theorem witness_DictionaryCapacity :
    (Inv ceiling4 ∧ (∃ t, step ceiling4 = .next t ∧ InJob t ∧ t.nc.toNat = 4095)) ∧
      (ceiling4.state = .scanning ∧ (1#8).toNat < ceiling4.c.toNat ∧ dictLookup ceiling4.dict [1] = some ceiling4.w ∧
        dictLookup ceiling4.dict ([1] ++ [1]) = none ∧ ceiling4.nc.toNat = 4095) ∧
      Inv scanning4 ∧ scanning4.state = .scanning ∧ (1#8).toNat < scanning4.c.toNat ∧
        dictLookup scanning4.dict [0] = some scanning4.w ∧ dictLookup scanning4.dict ([0] ++ [1]) = none ∧
        scanning4.nc.toNat ≠ 4095 :=
  ⟨⟨ceiling4_inv, _, rfl, .inr (.inl rfl), by decide⟩,
    ⟨rfl, by decide, grown_one 4089, grown_one_one 4089, by decide⟩,
    scanning4_inv, by decide⟩

/-- No byte joins after the Drain, and as many as make 255. -/
theorem witness_FramingDoesNotDependOnDrain :
    ({ drain State.reset with buf := (drain State.reset).buf ++ [] } : State).buf.length ≤ 255 ∧
      ({ drain State.reset with buf := (drain State.reset).buf ++ List.replicate 255 0x11#8 } : State).buf.length ≤ 255 := by
  decide +kernel

theorem witness_FinalFrameEndsWithTerminator :
    State.reset.buf.length ≤ 255 ∧ { State.reset with buf := List.replicate 255 0 }.buf.length ≤ 255 :=
  ⟨by decide, Nat.le_of_eq List.length_replicate⟩

theorem witness_TakeMovesOldestWord :
    ∃ (s : State) (rest : List HostAction) (o : OutWord) (queue : List OutWord), acceptNext s = none ∧
      s.host = .take :: rest ∧ s.outQueue = o :: queue :=
  ⟨{ scanning4 with host := [.take] }, _, _, _, rfl, rfl, rfl⟩

theorem witness_OutputIsOnlyAppended : ∃ t, step { scanning4 with host := [.take] } = .next t := ⟨_, rfl⟩

theorem witness_LastFlagOnlyOnTerminator :
    scanning4.state = .scanning ∧ (Instr.push 1 ≠ .endStream ∨ scanning4.state ≠ .scanning) := by decide

/-- An index below `C` in ARMED and in SCANNING, and END that faults. -/
theorem witness_WorstCaseOutputPerCommand :
    Inv armed4 ∧ armed4.state = .armed ∧ (3#8).toNat < armed4.c.toNat ∧ Inv scanning4 ∧ scanning4.state = .scanning ∧
      (3#8).toNat < scanning4.c.toNat ∧ ∃ t, exec .endStream armed4 = .next t ∧ t.state = .fault :=
  ⟨armed4_inv, rfl, by decide, scanning4_inv, rfl, by decide, _, rfl, rfl⟩

theorem witness_StallKeepsEverything (acts : List HostAction) :
    (waiting fullQueue acts).cmds = [0x03000000#32] ∧
      Config.outQueueDepth < (waiting fullQueue acts).outQueue.length + mayProduce 0x03000000#32 (waiting fullQueue acts) ∧
      (waiting fullQueue acts).host = acts := by
  refine ⟨rfl, ?_, rfl⟩
  have hq : (waiting fullQueue acts).outQueue.length = Config.outQueueDepth := fullQueue_length
  have hp : 0 < Config.worstCommand := by decide
  rw [mayProduce_waiting]
  omega

theorem witness_DrainedQueueAcceptsNextWord :
    ∃ (s : State) (word : CmdWord) (rest : List CmdWord), s.outQueue = [] ∧ s.cmds = word :: rest :=
  ⟨{ armed4 with cmds := [0x02000000#32] }, _, _, rfl, rfl⟩

/-- A word that is accepted, a stalled one behind which the host acts, and a host that writes. -/
theorem witness_StepRunsTheDecodedCommand :
    (∃ (s : State) (word : CmdWord) (rest : List CmdWord), s.cmds = word :: rest ∧
      s.outQueue.length + mayProduce word s ≤ Config.outQueueDepth ∧ decode word = .instr (.push 0)) ∧
      acceptNext (waiting fullQueue [.take]) = none ∧
      ∃ (s : State) (word : CmdWord) (rest : List HostAction), acceptNext s = none ∧ s.host = .write word :: rest :=
  ⟨⟨{ scanning4 with cmds := [0x02000000#32] }, _, _, rfl, room _ (by decide), by decide⟩, waits _,
    { State.reset with host := [.write 0x01000004#32] }, _, _, rfl, rfl⟩

theorem witness_CommandFrames :
    (∃ t, exec (.start 4) done4 = .next t ∧ t.state ≠ .fault) ∧ (∃ t, exec (.push 3) armed4 = .next t ∧ t.state ≠ .fault) ∧
      armed4.state = .armed ∧ ∃ t, exec .endStream scanning4 = .next t ∧ t.state ≠ .fault :=
  ⟨⟨_, rfl, by decide⟩, ⟨_, rfl, by decide⟩, rfl, _, rfl, by decide⟩

/-- A step that accepts a word, and one in which the host acts. -/
theorem witness_EveryStepKeepsLegalValues :
    Inv { armed4 with cmds := [0x02000003#32] } ∧ (∃ t, step { armed4 with cmds := [0x02000003#32] } = .next t) ∧
      Inv { armed4 with host := [.reset] } ∧ ∃ t, step { armed4 with host := [.reset] } = .next t :=
  ⟨⟨armed4_inv.err_iff, armed4_inv.acc_lt, armed4_inv.buf_le, armed4_inv.queue_le, armed4_inv.idle,
      fun _ => ⟨armed4_job.c_range, armed4_job.mcs_eq, armed4_job.nc_range, armed4_job.cs_eq, armed4_job.dict_ok⟩,
      armed4_inv.armed, armed4_inv.scanning, armed4_inv.done⟩, ⟨_, rfl⟩,
    ⟨armed4_inv.err_iff, armed4_inv.acc_lt, armed4_inv.buf_le, armed4_inv.queue_le, armed4_inv.idle,
      fun _ => ⟨armed4_job.c_range, armed4_job.mcs_eq, armed4_job.nc_range, armed4_job.cs_eq, armed4_job.dict_ok⟩,
      armed4_inv.armed, armed4_inv.scanning, armed4_inv.done⟩, _, rfl⟩

theorem witness_CodesFitTheirWidth : Inv scanning4 ∧ InJob scanning4 ∧ scanning4.state = .scanning :=
  ⟨scanning4_inv, .inr (.inl rfl), rfl⟩

theorem scanning4_out : OutOk scanning4 where
  idle := by intro h; cases h
  armed := by intro h; cases h
  scanning := fun _ => ⟨[], [{ byte := 0x02, last := false }], ⟨[], by simp, rfl⟩,
    ⟨by decide, by decide, [], by simp, by decide⟩, by decide⟩
  done := by intro h; cases h
  fault := by intro h; cases h

/-- A state with output, and a step from it. -/
theorem witness_EveryStepKeepsOutputShape :
    Inv scanning4 ∧ OutOk scanning4 ∧ ∃ t, step scanning4 = .next t :=
  ⟨scanning4_inv, scanning4_out, _, rfl⟩

theorem witness_JobOutputIsReferenceFunction :
    State.reset.state = .idle ∧ max (256#16).toNat 4 ≤ 256 ∧ ∀ x ∈ [0#8, 255#8], x.toNat < max (256#16).toNat 4 := by
  decide

theorem witness_EverySuccessfulJobHasTwoDataBytes : (4 : Nat) ≤ 4 := by decide

end Sys2Proof.Tests
end

/-! The fields of STATUS (10_state.md R33). -/

namespace Sys2Proof.Proofs

open Sys2Proof.Machine

/-- A word with the field `lo` below the field `hi`, as a number. -/
theorem toNat_append_eq {m n : Nat} (hi : BitVec m) (lo : BitVec n) :
    (hi ++ lo).toNat = hi.toNat * 2 ^ n + lo.toNat := by
  rw [BitVec.toNat_append, ← Nat.shiftLeft_add_eq_or_of_lt lo.isLt, Nat.shiftLeft_eq]

/-- STATUS as a number: each field at its weight, `NC` without its top bit (R33). -/
theorem statusWord_toNat (s : State) :
    s.statusWord.toNat = s.state.code.toNat + s.err.code.toNat * 2 ^ 4 + s.cs.toNat * 2 ^ 8 +
      s.mcs.toNat * 2 ^ 12 + s.nc.toNat % 2 ^ 12 * 2 ^ 16 := by
  simp only [State.statusWord, toNat_append_eq, BitVec.extractLsb'_toNat, Nat.shiftRight_zero, BitVec.toNat_ofNat]
  omega

/-- A field of a word is the part of its number at the field's weight. -/
theorem extractLsb'_eq_of_toNat {n start len : Nat} {x : BitVec n} {f : BitVec len}
    (h : x.toNat / 2 ^ start % 2 ^ len = f.toNat) : x.extractLsb' start len = f := by
  apply BitVec.eq_of_toNat_eq
  rw [BitVec.extractLsb'_toNat, Nat.shiftRight_eq_div_pow, h]

/-- Settles O8: the word as a number, then each field by division. -/
theorem statusWordFields : Obligations.StatusWordFields := by
  unfold Obligations.StatusWordFields
  intro s
  have hw := statusWord_toNat s
  have hstate := s.state.code.isLt
  have herr := s.err.code.isLt
  have hcs := s.cs.isLt
  have hmcs := s.mcs.isLt
  have hfield {start len : Nat} {f : BitVec len} := extractLsb'_eq_of_toNat (x := s.statusWord) (start := start) (f := f)
  refine ⟨hfield ?_, hfield ?_, hfield ?_, hfield ?_, hfield ?_, hfield ?_, hfield ?_, fun hnc => ?_, rfl, rfl⟩
  -- With every field a number below its bound, each goal is arithmetic.
  all_goals
    simp only [hw, BitVec.toNat_ofNat, BitVec.extractLsb'_toNat, Nat.shiftRight_zero]
    omega

end Sys2Proof.Proofs

/-! The reset state (10_state.md R35). -/

namespace Sys2Proof.Proofs

open Sys2Proof.Machine Sys2Proof.Safety

/-- Settles O6: each field of the reset state as R35 lists it, and STATUS built from them. -/
theorem resetLeavesEveryRegisterCleared : Obligations.ResetLeavesEveryRegisterCleared := by
  unfold Obligations.ResetLeavesEveryRegisterCleared
  decide

/-- The reset state holds no job: only the clauses on IDLE and on the packer say something of it. -/
theorem inv_reset : Inv State.reset where
  err_iff := by decide
  acc_lt := by decide
  buf_le := by decide
  queue_le := Nat.zero_le _
  idle := fun _ => ⟨rfl, rfl, rfl, rfl, rfl, rfl, rfl, rfl, rfl⟩
  job := by rintro (h | h | h) <;> cases h
  armed := by intro h; cases h
  scanning := by intro h; cases h
  done := by intro h; cases h

/-- Settles O45: the reset state, clause by clause. -/
theorem resetHasLegalValues : Obligations.ResetHasLegalValues := inv_reset

/-- Settles O48: the reset state is IDLE, and nothing is in `OUT`. -/
theorem resetHasOutputShape : Obligations.ResetHasOutputShape where
  idle := fun _ => rfl
  armed := by intro h; cases h
  scanning := by intro h; cases h
  done := by intro h; cases h
  fault := by intro h; cases h

end Sys2Proof.Proofs

/-! The dictionary as a map of whole sequences (10_state.md R26). -/

namespace Sys2Proof.Proofs

open Sys2Proof.Machine Sys2Proof.Safety Sys2Proof.Laws

/-- A sequence whose extension is in the dictionary is in it itself, unless it is empty. -/
theorem eq_nil_of_dictLookup_none {d : List DictEntry} {a : List Byte} {i : Byte} {k : Code}
    (h : dictLookup d (a ++ [i]) = some k) (hn : dictLookup d a = none) : a = [] := by
  by_contra ha
  rw [dictLookup_concat ha, hn] at h
  cases h

/-- The entry of a found sequence: its key is the code of the sequence without its last byte, and that byte. -/
theorem dictLookup_concat_entry {d : List DictEntry} {a : List Byte} {i : Byte} {k : Code}
    (h : dictLookup d (a ++ [i]) = some k) : ∃ e ∈ d, e.pre = dictLookup d a ∧ e.suffix = i ∧ e.code = k := by
  obtain ⟨a', i', heq, hentry⟩ := dictLookup_entry h
  obtain ⟨rfl, rfl⟩ := List.append_singleton_inj.mp heq
  exact hentry

section

variable {c nc : Nat} {d : List DictEntry}

/-- An entry that extends a sequence of the dictionary is found under that sequence and its own byte. -/
theorem dictLookup_extension (h : DictOk c nc d) {e : DictEntry} (he : e ∈ d) {q : List Byte} {p : Code}
    (hpre : e.pre = some p) (hq : dictLookup d q = some p) : dictLookup d (q ++ [e.suffix]) = some e.code := by
  have hne : q ≠ [] := by
    rintro rfl
    cases hq
  rw [dictLookup_concat hne, hq, Option.bind_some, ← hpre]
  exact dictFind_of_mem h.keys_distinct he

/-- A literal is found under its one byte. -/
theorem dictLookup_literal (h : DictOk c nc d) {e : DictEntry} (he : e ∈ literals c) :
    dictLookup d [e.suffix] = some e.code := by
  have hd : e ∈ d := List.mem_of_mem_take (h.literals_first ▸ he)
  rw [dictLookup_single, ← literals_pre he]
  exact dictFind_of_mem h.keys_distinct hd

/-- Distinct sequences have distinct codes: the code gives the entry, the entry the last byte and the code of the rest. -/
theorem dictLookup_inj (h : DictOk c nc d) {q1 q2 : List Byte} {k : Code} (h1 : dictLookup d q1 = some k)
    (h2 : dictLookup d q2 = some k) : q1 = q2 := by
  induction q1 using List.reverseRecOn generalizing q2 k with
  | nil => cases h1
  | append_singleton a1 i1 ih =>
    obtain ⟨a2, i2, rfl, e2, he2, hpre2, rfl, hcode2⟩ := dictLookup_entry h2
    obtain ⟨e1, he1, hpre1, rfl, hcode1⟩ := dictLookup_concat_entry h1
    obtain rfl := dictOk_code_inj h he1 he2 (hcode1.trans hcode2.symm)
    have hrest : dictLookup d a1 = dictLookup d a2 := hpre1.symm.trans hpre2
    cases ha : dictLookup d a1 with
    | some k' => rw [ih ha (hrest ▸ ha)]
    | none => rw [eq_nil_of_dictLookup_none h1 ha, eq_nil_of_dictLookup_none h2 (hrest ▸ ha)]

/-- Every code of an entry is that of a sequence, by induction on the code: the entry extends one with a smaller code. -/
theorem exists_dictLookup (h : DictOk c nc d) (n : Nat) :
    ∀ k ∈ dictCodes d, k.toNat = n → ∃ q, dictLookup d q = some k := by
  induction n using Nat.strong_induction_on with
  | _ n ih =>
    rintro k hk rfl
    obtain ⟨e, he, rfl⟩ := List.mem_map.mp hk
    rcases dictOk_entry_cases h he with hl | ⟨p, hp, hpre, hlt⟩
    · exact ⟨_, dictLookup_literal h hl⟩
    · obtain ⟨q, hq⟩ := ih _ hlt p hp rfl
      exact ⟨_, dictLookup_extension h he hpre hq⟩

/-- The one-byte sequences below the color count have their byte as code (R79, R120). -/
theorem dictLookup_byte (h : DictOk c nc d) {j : Byte} (hj : j.toNat < c) :
    dictLookup d [j] = some (BitVec.ofNat 12 j.toNat) := by
  have hm : ({ pre := none, suffix := BitVec.ofNat 8 j.toNat, code := BitVec.ofNat 12 j.toNat } : DictEntry) ∈
      literals c := List.mem_map.mpr ⟨j.toNat, List.mem_range.mpr hj, rfl⟩
  simpa using dictLookup_literal h hm

/-- A sequence with a code that no literal has extends one with a smaller code. -/
theorem dictLookup_extends (h : DictOk c nc d) (hc : c ≤ 256) {q : List Byte} {k : Code} (hq : dictLookup d q = some k)
    (hk : c ≤ k.toNat) : ∃ q' i k', q = q' ++ [i] ∧ dictLookup d q' = some k' ∧ k'.toNat < k.toNat := by
  obtain ⟨a, i, rfl, e, he, hpre, -, rfl⟩ := dictLookup_entry hq
  rcases dictOk_entry_cases h he with hl | ⟨p, -, hp, hlt⟩
  · have hm : e.code.toNat ∈ (literals c).map fun e => e.code.toNat := List.mem_map.mpr ⟨e, hl, rfl⟩
    rw [literals_codes hc, List.mem_range] at hm
    omega
  · exact ⟨a, i, p, rfl, hpre.symm.trans hp, hlt⟩

end

/-- Settles O31, from the dictionary part of the registers of a job. -/
theorem dictionaryMapsSequencesOneToOne : Obligations.DictionaryMapsSequencesOneToOne := by
  unfold Obligations.DictionaryMapsSequencesOneToOne
  intro s hjob
  have hd := hjob.dict_ok
  refine ⟨fun q1 q2 k => dictLookup_inj hd, fun k => ⟨?_, fun hk => ?_⟩, fun j => dictLookup_byte hd,
    fun q k => dictLookup_extends hd hjob.c_range.2⟩
  · rintro ⟨q, hq⟩
    exact dictOk_code_bounds hd (dictLookup_mem hq)
  · exact exists_dictLookup hd _ k (dictOk_mem_codes hd hk) rfl

end Sys2Proof.Proofs

/-! Every command appends to the output queue (10_state.md R31). -/

namespace Sys2Proof.Proofs

open Sys2Proof.Machine Sys2Proof.Laws

theorem writeCode_appends (v : Nat) (s : State) : s.outQueue <+: (writeCode v s).outQueue := by
  obtain ⟨blocks, rest, -, -, -, hd⟩ := drain_spec (writeBits v s.cs.toNat s)
  rw [writeCode, hd]
  exact List.prefix_append _ _

theorem pushFirst_appends (i : Byte) (s : State) : s.outQueue <+: (pushFirst i s).outQueue :=
  (List.prefix_append _ _).trans (writeCode_appends s.c.toNat (outAppend (s.mcs.setWidth 8) false s))

theorem pushMismatch_appends (i : Byte) (s : State) : s.outQueue <+: (pushMismatch i s).outQueue := by
  have hhead : s.outQueue <+: (mismatchHead i s).outQueue := writeCode_appends s.w.toNat s
  rcases pushMismatch_cases i s with ⟨_, h⟩ | ⟨_, _, h⟩ | ⟨_, _, h⟩
  · rw [h]
    exact hhead.trans (writeCode_appends _ (mismatchHead i s))
  · rw [h]
    exact hhead
  · rw [h]
    exact hhead

theorem pushNext_appends (i : Byte) (s : State) : s.outQueue <+: (pushNext i s).outQueue := by
  rcases pushNext_cases i s with ⟨k, _, h⟩ | ⟨_, h⟩
  · rw [h]
  · rw [h]
    exact pushMismatch_appends i s

/-- What END leaves in the packer, before the last byte is completed (R155). -/
def closeCodes (s : State) : State := writeCode (s.c.toNat + 1) (writeCode s.w.toNat s)

/-- END's output: what its two codes send, the last sub-block and the terminator (R155, R181). -/
theorem closeJob_outQueue (s : State) :
    (closeJob s).outQueue = (closeCodes s).outQueue ++
      (if 0 < (flush (closeCodes s)).buf.length then subBlock (flush (closeCodes s)).buf else []) ++
      [{ byte := 0x00#8, last := true }] := rfl

theorem closeJob_appends (s : State) : s.outQueue <+: (closeJob s).outQueue := by
  rw [closeJob_outQueue, List.append_assoc]
  exact ((writeCode_appends _ s).trans (writeCode_appends _ _)).trans (List.prefix_append _ _)

/-- A state with the same words taken and a longer queue has a longer `OUT`. -/
theorem out_prefix {s t : State} (htaken : t.taken = s.taken) (hq : s.outQueue <+: t.outQueue) : s.out <+: t.out := by
  rw [State.out, State.out, htaken]
  exact (List.prefix_append_right_inj _).mpr hq

/-- A command only appends to `OUT`. -/
theorem went_out_prefix {i : Instr} {s t : State} (h : Went s i t) : s.out <+: t.out := by
  cases h with
  | ignored => exact List.prefix_rfl
  | raised => exact List.prefix_rfl
  | opened => exact List.prefix_rfl
  | first b => exact out_prefix rfl (pushFirst_appends b s)
  | next b => exact out_prefix (pushNext_taken b s) (pushNext_appends b s)
  | closed => exact out_prefix (closeJob_taken s) (closeJob_appends s)

/-- A command word only appends to `OUT`. -/
theorem runWord_out_prefix {word : CmdWord} {s t : State} (h : runWord word s = .next t) : s.out <+: t.out := by
  obtain ⟨t', ht', hcase⟩ := runWord_cases word s
  rw [h] at ht'
  cases ht'
  rcases hcase with ⟨i, _, hexec⟩ | ⟨_, _, ⟨_, rfl⟩ | ⟨_, rfl⟩⟩
  · exact went_out_prefix (went_of_exec hexec)
  · exact List.prefix_rfl
  · exact List.prefix_rfl

/-- The host's next action leaves `OUT` as it is, unless it is the reset input. -/
theorem hostNext_out (s : State) :
    (hostNext s).out = s.out ∨ ∃ rest, s.host = .reset :: rest ∧ hostNext s = { State.reset with host := rest } := by
  rcases hostNext_cases s with ⟨_, h⟩ | ⟨_, _, _, h⟩ | ⟨_, _, _, h⟩ | ⟨rest, o, queue, _, hq, h⟩ | ⟨_, _, h⟩ | hreset
  · exact .inl (by rw [h])
  · exact .inl (by rw [h]; rfl)
  · exact .inl (by rw [h]; rfl)
  · refine .inl ?_
    rw [h]
    simp [State.out, hq]
  · exact .inl (by rw [h]; rfl)
  · exact .inr hreset

/-- Settles O38: an accepted word appends, the host's actions but reset keep `OUT`. -/
theorem outputIsOnlyAppended : Obligations.OutputIsOnlyAppended := by
  unfold Obligations.OutputIsOnlyAppended
  intro s t hstep
  rcases step_cases s with ⟨word, rest, _, _, _, hrun, _⟩ | ⟨_, hhost⟩
  · have happend := runWord_out_prefix (hrun.symm.trans hstep)
    exact .inl happend
  · rw [hstep] at hhost
    cases hhost
    rcases hostNext_out s with h | h
    · exact .inl (by rw [h])
    · exact .inr h

end Sys2Proof.Proofs

/-! The packer and the output queue after a command (10_state.md R28, 70_reset_and_hazards.md R236). -/

namespace Sys2Proof.Proofs

open Sys2Proof.Machine Sys2Proof.Safety Sys2Proof.Laws

/-- `t` comes from `s` by packing at most `extra` more bytes: its packer is legal again, and each 255 bytes that left it
made one sub-block of 256 words. -/
structure Packed (extra : Nat) (s t : State) : Prop where
  acc_lt : t.acc.toNat < 2 ^ t.nb.toNat
  buf_le : t.buf.length ≤ 254
  blocks : ∃ n, t.outQueue.length = s.outQueue.length + 256 * n ∧ 255 * n + t.buf.length ≤ s.buf.length + extra

theorem Packed.trans {a b : Nat} {s t u : State} (h1 : Packed a s t) (h2 : Packed b t u) : Packed (a + b) s u := by
  obtain ⟨-, -, n, hq, hn⟩ := h1
  obtain ⟨hacc, hbuf, m, hq', hm⟩ := h2
  exact ⟨hacc, hbuf, n + m, by omega, by omega⟩

theorem Packed.weaken {a b : Nat} {s t : State} (h : Packed a s t) (hab : a ≤ b) : Packed b s t := by
  obtain ⟨hacc, hbuf, n, hq, hn⟩ := h
  exact ⟨hacc, hbuf, n, hq, by omega⟩

/-- Fewer than 256 further bytes make at most one sub-block. -/
theorem Packed.queue_le {extra : Nat} {s t : State} (h : Packed extra s t) (hbuf : s.buf.length ≤ 254)
    (he : extra < 256) : t.outQueue.length ≤ s.outQueue.length + 256 := by
  obtain ⟨-, -, n, hq, hn⟩ := h
  omega

theorem flatMap_subBlock_length {blocks : List (List Byte)} (h : ∀ b ∈ blocks, b.length = 255) :
    (blocks.flatMap subBlock).length = 256 * blocks.length := by
  induction blocks with
  | nil => rfl
  | cons b rest ih =>
    obtain ⟨hb, hrest⟩ := List.forall_mem_cons.mp h
    rw [List.flatMap_cons, List.length_append, ih hrest, subBlock_length, hb, List.length_cons]
    omega

/-- A code of at most 15 bits, with at most 7 bits pending, completes at most two bytes. -/
theorem writeCode_packed (v : Nat) {s : State} (h : s.acc.toNat < 2 ^ s.nb.toNat) : Packed 2 s (writeCode v s) := by
  obtain ⟨blocks, hblocks, hq, hlt, hlen, -, hacc, -⟩ := writeCode_spec v s h
  have hnb := s.nb.isLt
  have hcs := s.cs.isLt
  exact ⟨hacc, by omega, blocks.length, by rw [hq, List.length_append, flatMap_subBlock_length hblocks], by omega⟩

theorem pushFirst_packed (i : Byte) {s : State} (h : s.acc.toNat < 2 ^ s.nb.toNat) :
    Packed 2 (outAppend (s.mcs.setWidth 8) false s) (pushFirst i s) := by
  obtain ⟨hacc, hbuf, hblocks⟩ := writeCode_packed s.c.toNat (s := outAppend (s.mcs.setWidth 8) false s) h
  exact ⟨hacc, hbuf, hblocks⟩

theorem mismatchHead_packed (i : Byte) {s : State} (h : s.acc.toNat < 2 ^ s.nb.toNat) :
    Packed 2 s (mismatchHead i s) := by
  obtain ⟨hacc, hbuf, hblocks⟩ := writeCode_packed s.w.toNat h
  exact ⟨hacc, hbuf, hblocks⟩

theorem ceilingReset_packed {s : State} (h : s.acc.toNat < 2 ^ s.nb.toNat) : Packed 2 s (ceilingReset s) := by
  obtain ⟨hacc, hbuf, hblocks⟩ := writeCode_packed s.c.toNat h
  exact ⟨hacc, hbuf, hblocks⟩

theorem pushMismatch_packed (i : Byte) {s : State} (h : s.acc.toNat < 2 ^ s.nb.toNat) :
    Packed 4 s (pushMismatch i s) := by
  have hhead := mismatchHead_packed i h
  rcases pushMismatch_cases i s with ⟨_, h'⟩ | ⟨_, _, h'⟩ | ⟨_, _, h'⟩
  · rw [h']
    exact hhead.trans (ceilingReset_packed hhead.acc_lt)
  · rw [h']
    obtain ⟨hacc, hbuf, hblocks⟩ := hhead.weaken (b := 4) (by omega)
    exact ⟨hacc, hbuf, hblocks⟩
  · rw [h']
    exact hhead.weaken (by omega)

theorem pushNext_packed (i : Byte) {s : State} (hacc : s.acc.toNat < 2 ^ s.nb.toNat) (hbuf : s.buf.length ≤ 254) :
    Packed 4 s (pushNext i s) := by
  rcases pushNext_cases i s with ⟨k, _, h⟩ | ⟨_, h⟩
  · rw [h]
    exact ⟨hacc, hbuf, 0, rfl, by simp⟩
  · rw [h]
    exact pushMismatch_packed i hacc

theorem closeCodes_packed {s : State} (h : s.acc.toNat < 2 ^ s.nb.toNat) : Packed 4 s (closeCodes s) := by
  have h1 := writeCode_packed s.w.toNat h
  exact h1.trans (writeCode_packed _ h1.acc_lt)

/-! R236's figures: what each effect may add to the queue. -/

theorem pushFirst_queue_length (i : Byte) {s : State} (h : PackerEmpty s) :
    (pushFirst i s).outQueue.length = s.outQueue.length + 1 := by
  obtain ⟨hacc, hnb, hbuf⟩ := h
  obtain ⟨-, -, n, hq, hn⟩ := pushFirst_packed i (s := s) (by rw [hacc, hnb]; decide)
  rw [outAppend_buf, hbuf, List.length_nil] at hn
  rw [outAppend_outQueue, List.length_append, List.length_singleton] at hq
  omega

/-- END: at most one full sub-block from its codes, the last sub-block of at most 255 bytes, and the terminator. -/
theorem closeJob_queue_length {s : State} (hacc : s.acc.toNat < 2 ^ s.nb.toNat) (hbuf : s.buf.length ≤ 254) :
    (closeJob s).outQueue.length ≤ s.outQueue.length + 513 := by
  have hcodes := closeCodes_packed hacc
  have hqueue := hcodes.queue_le hbuf (by omega)
  have hlast : (flush (closeCodes s)).buf.length ≤ 255 := by
    have := hcodes.buf_le
    rw [flush_buf]
    split
    · rw [List.length_append, List.length_singleton]
      omega
    · omega
  rw [closeJob_outQueue]
  split
  · simp only [List.length_append, subBlock_length, List.length_singleton]
    omega
  · simp only [List.length_append, List.length_nil, List.length_singleton]
    omega

theorem mayProduce_first {word : CmdWord} {i : Byte} {s : State} (hd : decode word = .instr (.push i))
    (hs : s.state = .armed) : mayProduce word s = 1 := by simp only [mayProduce, hd, hs]

theorem mayProduce_next {word : CmdWord} {i : Byte} {s : State} (hd : decode word = .instr (.push i))
    (hs : s.state = .scanning) : mayProduce word s = 256 := by simp only [mayProduce, hd, hs]

theorem mayProduce_close {word : CmdWord} {s : State} (hd : decode word = .instr .endStream)
    (hs : s.state = .scanning) : mayProduce word s = 513 := by simp only [mayProduce, hd, hs]

/-- A command adds no more to the queue than was asked for when its word was accepted (R234, R236). -/
theorem went_queue_le {word : CmdWord} {i : Instr} {s t : State} (h : Inv s) (hd : decode word = .instr i)
    (hw : Went s i t) : t.outQueue.length ≤ s.outQueue.length + mayProduce word s := by
  cases hw with
  | ignored => exact Nat.le_add_right _ _
  | raised => exact Nat.le_add_right _ _
  | opened => exact Nat.le_add_right _ _
  | first b hs =>
    obtain ⟨-, -, hempty⟩ := h.armed hs
    rw [mayProduce_first hd hs, pushFirst_queue_length b hempty]
  | next b hs =>
    rw [mayProduce_next hd hs]
    exact (pushNext_packed b h.acc_lt h.buf_le).queue_le h.buf_le (by omega)
  | closed hs =>
    rw [mayProduce_close hd hs]
    exact closeJob_queue_length h.acc_lt h.buf_le

end Sys2Proof.Proofs

/-! The registers of a job after a command (10_state.md R21, R26, R29). -/

namespace Sys2Proof.Proofs

open Sys2Proof.Machine Sys2Proof.Safety Sys2Proof.Laws

/-- The first width of a job fits Clear and EOI, so that R29 holds with `NC = C + 2`. -/
theorem width_fresh {c : Nat} (hc : 4 ≤ c) : minCodeSize c + 1 = max (minCodeSize c + 1) (bitlen (c + 2 - 1)) := by
  have hlt : c - 1 < 2 ^ minCodeSize c := bitlen_lt (c - 1)
  have hle : bitlen (c + 2 - 1) ≤ minCodeSize c + 1 := bitlen_le (by rw [Nat.pow_succ]; omega)
  omega

section

variable {m n w : Nat} (hw : w = max (m + 1) (bitlen (n - 1))) (hn : 0 < n)

include hw

/-- R153: where `NC = 2^CS` the width of R29 grows by one. -/
theorem width_grow (h : n = 2 ^ w) : w + 1 = max (m + 1) (bitlen n) := by
  have hlen : bitlen n = w + 1 := bitlen_eq h.ge (by rw [h]; exact Nat.pow_lt_pow_right (by omega) (by omega))
  omega

include hn

/-- R153: elsewhere it stays. -/
theorem width_keep (h : n ≠ 2 ^ w) : w = max (m + 1) (bitlen n) := by
  have hlt : n - 1 < 2 ^ w :=
    Nat.lt_of_lt_of_le (bitlen_lt (n - 1)) (Nat.pow_le_pow_right (by omega) (by omega))
  have hle : bitlen n ≤ w := bitlen_le (by omega)
  have hmono : bitlen (n - 1) ≤ bitlen n := bitlen_mono (Nat.sub_le _ _)
  omega

end

theorem jobOk_congr {s t : State} (h : JobOk s) (hc : t.c = s.c) (hmcs : t.mcs = s.mcs) (hcs : t.cs = s.cs)
    (hnc : t.nc = s.nc) (hdict : t.dict = s.dict) : JobOk t := by
  obtain ⟨h1, h2, h3, h4, h5⟩ := h
  exact ⟨by rwa [hc], by rwa [hc, hmcs], by rwa [hc, hnc], by rwa [hcs, hmcs, hnc], by rwa [hc, hnc, hdict]⟩

/-- The registers after DictReset, at START and at the ceiling (R142, R152). -/
theorem jobOk_fresh {s : State} (hc : 4 ≤ s.c.toNat ∧ s.c.toNat ≤ 256) (hmcs : s.mcs.toNat = minCodeSize s.c.toNat)
    (hcs : s.cs.toNat = s.mcs.toNat + 1) (hnc : s.nc.toNat = s.c.toNat + 2) (hdict : s.dict = literals s.c.toNat) :
    JobOk s where
  c_range := hc
  mcs_eq := hmcs
  nc_range := by simp only [Config.lastCode]; omega
  cs_eq := by rw [hcs, hnc, hmcs]; exact width_fresh hc.1
  dict_ok := by rw [hnc, hdict]; exact dictOk_literals hc.2

theorem ofNat_colors_toNat {cn : Nat} (h : cn ≤ 256) : (BitVec.ofNat 9 cn).toNat = cn := by
  rw [BitVec.toNat_ofNat]
  omega

theorem jobOk_openJob {cn : Nat} (s : State) (hc : 4 ≤ cn ∧ cn ≤ 256) : JobOk (openJob cn s) := by
  have hc9 := ofNat_colors_toNat hc.2
  have hm := minCodeSize_le hc.2
  apply jobOk_fresh
  · rwa [openJob_c, hc9]
  · rw [openJob_mcs, openJob_c, hc9, BitVec.toNat_ofNat]
    omega
  · rw [openJob_cs, openJob_mcs, BitVec.toNat_ofNat, BitVec.toNat_ofNat]
    omega
  · rw [openJob_nc, openJob_c, hc9, BitVec.toNat_ofNat]
    omega
  · rfl

theorem jobOk_ceilingReset {s : State} (hc : 4 ≤ s.c.toNat ∧ s.c.toNat ≤ 256)
    (hmcs : s.mcs.toNat = minCodeSize s.c.toNat) : JobOk (ceilingReset s) := by
  have hm := minCodeSize_le hc.2
  apply jobOk_fresh
  · exact hc
  · exact hmcs
  · rw [ceilingReset_cs, ceilingReset_mcs, BitVec.toNat_add_of_lt (by simp; omega)]
    rfl
  · rw [ceilingReset_nc, ceilingReset_c, BitVec.toNat_ofNat]
    omega
  · rfl

section

variable {s : State} (h : JobOk s) (hw : s.w ∈ dictCodes s.dict) {i : Byte}
  (hf : dictFind s.dict (some s.w) i = none)

include h hw hf

/-- The registers after a mismatch below the ceiling, the width being that of R29 for the new `NC`. -/
theorem jobOk_inserted (hnc : s.nc.toNat ≠ 4095) {cs : BitVec 4}
    (hcs : cs.toNat = max (s.mcs.toNat + 1) (bitlen s.nc.toNat)) : JobOk { mismatchHead i s with cs := cs } := by
  obtain ⟨hcr, hmcs, hncr, -, hdict⟩ := h
  rw [Config.lastCode] at hncr
  have hnc' : (s.nc + 1).toNat = s.nc.toNat + 1 := BitVec.toNat_add_of_lt (by simp; omega)
  refine ⟨hcr, hmcs, ?_, ?_, ?_⟩
  · show s.c.toNat + 2 ≤ (s.nc + 1).toNat ∧ (s.nc + 1).toNat ≤ 4095
    omega
  · show cs.toNat = max (s.mcs.toNat + 1) (bitlen ((s.nc + 1).toNat - 1))
    rw [hnc', Nat.add_sub_cancel, hcs]
  · show DictOk s.c.toNat (s.nc + 1).toNat (mismatchHead i s).dict
    rw [hnc', mismatchHead_dict, ← BitVec.ofNat_toNat]
    exact dictOk_insert hdict hw hf hncr.1 hncr.2

theorem jobOk_pushMismatch : JobOk (pushMismatch i s) := by
  have hncr := h.nc_range
  rw [Config.lastCode] at hncr
  rcases pushMismatch_cases i s with ⟨_, hm⟩ | ⟨hne, hg, hm⟩ | ⟨hne, hg, hm⟩
  · rw [hm]
    exact jobOk_ceilingReset (s := mismatchHead i s) h.c_range h.mcs_eq
  · rw [hm]
    have hsmall : s.cs.toNat < 12 := (Nat.pow_lt_pow_iff_right (a := 2) (by omega)).mp (by omega)
    refine jobOk_inserted h hw hf hne ?_
    rw [BitVec.toNat_add_of_lt (by simp; omega)]
    exact width_grow h.cs_eq hg
  · rw [hm]
    exact jobOk_inserted h hw hf hne (width_keep h.cs_eq (by omega) hg)

end

theorem jobOk_pushNext {s : State} (h : JobOk s) (hw : s.w ∈ dictCodes s.dict) (i : Byte) : JobOk (pushNext i s) := by
  rcases pushNext_cases i s with ⟨k, _, hm⟩ | ⟨hf, hm⟩
  · rw [hm]
    exact jobOk_congr h rfl rfl rfl rfl rfl
  · rw [hm]
    exact jobOk_pushMismatch h hw hf

/-! R27: `W` after a PUSH. -/

/-- The literal of an index below `C` is in the dictionary. -/
theorem literalCode_mem {s : State} (h : JobOk s) {i : Byte} (hi : i.toNat < s.c.toNat) :
    literalCode i ∈ dictCodes s.dict := by
  refine dictOk_mem_codes h.dict_ok (.inl ?_)
  rw [literalCode, BitVec.toNat_setWidth_of_le (by omega)]
  exact hi

theorem pushNext_w_mem {s : State} (h : JobOk s) (hw : s.w ∈ dictCodes s.dict) {i : Byte} (hi : i.toNat < s.c.toNat) :
    (pushNext i s).w ∈ dictCodes (pushNext i s).dict := by
  rcases pushNext_cases i s with ⟨k, hk, hm⟩ | ⟨hf, hm⟩
  · rw [hm]
    obtain ⟨e, he, -, -, hcode⟩ := dictFind_entry hk
    exact List.mem_map.mpr ⟨e, he, hcode⟩
  · rw [hm, pushMismatch_w]
    exact literalCode_mem (jobOk_pushMismatch h hw hf) (by rwa [pushMismatch_c])

end Sys2Proof.Proofs

/-! Every step keeps the legal values between commands (10_state.md R21). -/

namespace Sys2Proof.Proofs

open Sys2Proof.Machine Sys2Proof.Safety Sys2Proof.Laws

/-- The legal values say nothing of the ports but the length of the output queue. -/
theorem inv_ports {s : State} (h : Inv s) {queue : List OutWord} (hq : queue.length ≤ Config.outQueueDepth)
    (taken : List OutWord) (cmds : List CmdWord) (host : List HostAction) (log : List StatusWord) :
    Inv { s with outQueue := queue, taken := taken, cmds := cmds, host := host, statusLog := log } where
  err_iff := h.err_iff
  acc_lt := h.acc_lt
  buf_le := h.buf_le
  queue_le := hq
  idle := h.idle
  job := fun hj => jobOk_congr (h.job hj) rfl rfl rfl rfl rfl
  armed := h.armed
  scanning := h.scanning
  done := h.done

/-- What a state in SCANNING needs to be legal. -/
theorem inv_scanning {s : State} (hs : s.state = .scanning) (herr : s.err = .noError)
    (hacc : s.acc.toNat < 2 ^ s.nb.toNat) (hbuf : s.buf.length ≤ 254)
    (hq : s.outQueue.length ≤ Config.outQueueDepth) (hjob : JobOk s) (hw : s.w ∈ dictCodes s.dict) : Inv s where
  err_iff := by simp [herr, hs]
  acc_lt := hacc
  buf_le := hbuf
  queue_le := hq
  idle := by simp [hs]
  job := fun _ => hjob
  armed := by simp [hs]
  scanning := fun _ => hw
  done := by simp [hs]

section

variable {s : State} (h : Inv s)

include h

theorem inv_raiseFault {e : Err} (he : e ≠ .noError) : Inv (raiseFault e s) where
  err_iff := by simp [he]
  acc_lt := h.acc_lt
  buf_le := h.buf_le
  queue_le := h.queue_le
  idle := by simp
  job := by simp [InJob]
  armed := by simp
  scanning := by simp
  done := by simp

theorem inv_openJob (hs : s.state ≠ .fault) {cn : Nat} (hc : 4 ≤ cn ∧ cn ≤ 256) : Inv (openJob cn s) where
  err_iff := by simp [h.err_iff.mpr hs]
  acc_lt := by simp
  buf_le := by simp
  queue_le := h.queue_le
  idle := by simp
  job := fun _ => jobOk_openJob s hc
  armed := by
    refine fun _ => ⟨rfl, ?_, rfl, rfl, rfl⟩
    rw [openJob_nc, openJob_c, ofNat_colors_toNat hc.2, BitVec.toNat_ofNat]
    omega
  scanning := by simp
  done := by simp

theorem inv_pushFirst (hs : s.state = .armed) {i : Byte} (hi : i.toNat < s.c.toNat)
    (hq : (pushFirst i s).outQueue.length ≤ Config.outQueueDepth) : Inv (pushFirst i s) := by
  have hjob : JobOk (pushFirst i s) := jobOk_congr (h.job (.inl hs)) rfl rfl rfl rfl rfl
  have hpack := pushFirst_packed i h.acc_lt
  have herr : s.err = .noError := h.err_iff.mpr (by simp [hs])
  exact inv_scanning rfl herr hpack.acc_lt hpack.buf_le hq hjob (literalCode_mem hjob hi)

theorem inv_pushNext (hs : s.state = .scanning) {i : Byte} (hi : i.toNat < s.c.toNat)
    (hq : (pushNext i s).outQueue.length ≤ Config.outQueueDepth) : Inv (pushNext i s) := by
  have hjob : JobOk s := h.job (.inr (.inl hs))
  have hw := h.scanning hs
  have hpack := pushNext_packed i h.acc_lt h.buf_le
  have herr : s.err = .noError := h.err_iff.mpr (by simp [hs])
  exact inv_scanning (by rw [pushNext_state, hs]) (by rw [pushNext_err, herr]) hpack.acc_lt hpack.buf_le hq
    (jobOk_pushNext hjob hw i) (pushNext_w_mem hjob hw hi)

theorem inv_closeJob (hs : s.state = .scanning) (hq : (closeJob s).outQueue.length ≤ Config.outQueueDepth) :
    Inv (closeJob s) where
  err_iff := by simp [h.err_iff.mpr (show s.state ≠ .fault by simp [hs])]
  acc_lt := by simp
  buf_le := by simp
  queue_le := hq
  idle := by simp
  job := fun _ => jobOk_congr (h.job (.inr (.inl hs))) (closeJob_c s) (closeJob_mcs s) (closeJob_cs s) (closeJob_nc s)
    (closeJob_dict s)
  armed := by simp
  scanning := by simp
  done := fun _ => ⟨closeJob_acc s, closeJob_nb s, closeJob_buf s⟩

/-- Every way a command can go keeps the legal values, where the queue has room for its output. -/
theorem went_keeps_inv {i : Instr} {t : State} (hw : Went s i t) (hq : t.outQueue.length ≤ Config.outQueueDepth) :
    Inv t := by
  cases hw with
  | ignored => exact h
  | raised _ _ _ he => exact inv_raiseFault h he
  | opened cc hs hc =>
    have hcolors : 4 ≤ coerceColors cc := Nat.le_max_right _ _
    exact inv_openJob h (by rcases hs with hs | hs <;> simp [hs]) ⟨hcolors, hc⟩
  | first b hs hi => exact inv_pushFirst h hs hi hq
  | next b hs hi => exact inv_pushNext h hs hi hq
  | closed hs => exact inv_closeJob h hs hq

theorem runWord_keeps_inv {word : CmdWord} {t : State}
    (hroom : s.outQueue.length + mayProduce word s ≤ Config.outQueueDepth) (hr : runWord word s = .next t) : Inv t := by
  obtain ⟨t', ht', hcase⟩ := runWord_cases word s
  rw [hr] at ht'
  cases ht'
  rcases hcase with ⟨i, hd, hexec⟩ | ⟨_, _, ⟨_, rfl⟩ | ⟨_, rfl⟩⟩
  · have hw := went_of_exec hexec
    exact went_keeps_inv h hw (Nat.le_trans (went_queue_le h hd hw) hroom)
  · exact h
  · exact inv_raiseFault h (by decide)

theorem hostNext_keeps_inv : Inv (hostNext s) := by
  have hqueue := h.queue_le
  rcases hostNext_cases s with ⟨_, hn⟩ | ⟨_, _, _, hn⟩ | ⟨_, _, _, hn⟩ | ⟨_, _, _, _, hq, hn⟩ | ⟨_, _, hn⟩ | ⟨_, _, hn⟩
  · rwa [hn]
  · rw [hn]
    exact inv_ports h hqueue _ _ _ _
  · rw [hn]
    exact inv_ports h hqueue _ _ _ _
  · rw [hn]
    rw [hq, List.length_cons] at hqueue
    exact inv_ports h (Nat.le_of_succ_le hqueue) _ _ _ _
  · rw [hn]
    exact inv_ports h hqueue _ _ _ _
  · rw [hn]
    exact inv_ports inv_reset (Nat.zero_le _) _ _ _ _

end

/-- Settles O46: an accepted word keeps the legal values by its effect's case, the host's actions touch the ports only or
reset the block. -/
theorem everyStepKeepsLegalValues : Obligations.EveryStepKeepsLegalValues := by
  unfold Obligations.EveryStepKeepsLegalValues
  intro s t h hstep
  rcases step_cases s with ⟨word, rest, _, _, hcan, hrun, _⟩ | ⟨_, hhost⟩
  · have hroom := (canAccept_iff word s).mp hcan
    exact runWord_keeps_inv (inv_ports h h.queue_le s.taken rest s.host s.statusLog) hroom (hrun.symm.trans hstep)
  · rw [hstep] at hhost
    cases hhost
    exact hostNext_keeps_inv h

end Sys2Proof.Proofs

/-! A step at the ports: the host's action, and the command a waiting word decodes to (20_memory.md R54). -/

namespace Sys2Proof.Proofs

open Sys2Proof.Machine Sys2Proof.Laws

/-- Where no word can be accepted, the step is the host's next action. -/
theorem step_host {s : State} (h : acceptNext s = none) : step s = .next (hostNext s) := by
  rw [step, h]

theorem hostNext_write {s : State} {word : CmdWord} {rest : List HostAction} (h : s.host = .write word :: rest) :
    hostNext s = { s with host := rest, cmds := s.cmds ++ [word] } := by
  rw [hostNext, h]
  rfl

theorem hostNext_take {s : State} {rest : List HostAction} {o : OutWord} {queue : List OutWord}
    (h : s.host = .take :: rest) (hq : s.outQueue = o :: queue) :
    hostNext s = { s with host := rest, outQueue := queue, taken := s.taken ++ [o] } := by
  rw [hostNext, h]
  simp only [hostAct, takeWord, hq]

theorem runWord_instr {word : CmdWord} {i : Instr} (h : decode word = .instr i) (s : State) :
    runWord word s = exec i s := by
  rw [runWord, h]

/-- Settles O37: the step is the host's take, and a take is not the reset input, so `OUT` stays. -/
theorem takeMovesOldestWord : Obligations.TakeMovesOldestWord := by
  unfold Obligations.TakeMovesOldestWord
  intro s rest o queue hnone hhost hq
  have hout : (hostNext s).out = s.out := by
    rcases hostNext_out s with h | ⟨more, hreset, _⟩
    · exact h
    · rw [hhost] at hreset
      cases hreset
  exact ⟨hostNext s, step_host hnone, hostNext_take hhost hq, hout⟩

/-- Settles O43: an accepted word that decodes to a command runs it, else the host acts. -/
theorem stepRunsTheDecodedCommand : Obligations.StepRunsTheDecodedCommand := by
  unfold Obligations.StepRunsTheDecodedCommand
  refine ⟨?_, fun _ => step_host, ?_⟩
  · intro s word rest i hcmds hroom hdecode
    rw [step_accept hcmds hroom, runWord_instr hdecode]
  · intro s word rest hnone hhost
    rw [step_host hnone, hostNext_write hhost]

end Sys2Proof.Proofs

/-! The decoder and the encoder agree (30_encoding.md R70 to R75). -/

namespace Sys2Proof.Proofs

open Sys2Proof.Machine Sys2Proof.Laws

/-- A field of a word has a value exactly where the word's number has it at the field's weight. -/
theorem extractLsb'_eq_iff {n start len : Nat} {x : BitVec n} {f : BitVec len} :
    x.extractLsb' start len = f ↔ x.toNat / 2 ^ start % 2 ^ len = f.toNat := by
  rw [← BitVec.toNat_inj, BitVec.extractLsb'_toNat, Nat.shiftRight_eq_div_pow]

theorem opcodeField_eq_iff {word : CmdWord} {op : BitVec 8} :
    opcodeField word = op ↔ word.toNat / 2 ^ 24 = op.toNat := by
  have hword := word.isLt
  rw [opcodeField, extractLsb'_eq_iff, Nat.mod_eq_of_lt (by omega)]

section

variable {word : CmdWord} {cc : BitVec 16} {i : Byte}

/-! The words of each command, field by field. -/

theorem decode_start_iff : decode word = .instr (.start cc) ↔
    opcodeField word = 0x01#8 ∧ startReserved word = 0#8 ∧ colorField word = cc := by
  unfold decode
  split_ifs <;> simp_all

theorem decode_push_iff : decode word = .instr (.push i) ↔
    opcodeField word = 0x02#8 ∧ pushReserved word = 0#16 ∧ indexField word = i := by
  unfold decode
  split_ifs <;> simp_all

theorem decode_end_iff : decode word = .instr .endStream ↔ opcodeField word = 0x03#8 ∧ endReserved word = 0#24 := by
  unfold decode
  split_ifs <;> simp_all

/-! The words of each command, as numbers. -/

theorem decode_start_iff_toNat : decode word = .instr (.start cc) ↔ word.toNat = 1 * 2 ^ 24 + cc.toNat := by
  have hcc := cc.isLt
  rw [decode_start_iff, opcodeField_eq_iff, startReserved, colorField, extractLsb'_eq_iff, extractLsb'_eq_iff]
  simp only [BitVec.toNat_ofNat]
  omega

theorem decode_push_iff_toNat : decode word = .instr (.push i) ↔ word.toNat = 2 * 2 ^ 24 + i.toNat := by
  have hi := i.isLt
  rw [decode_push_iff, opcodeField_eq_iff, pushReserved, indexField, extractLsb'_eq_iff, extractLsb'_eq_iff]
  simp only [BitVec.toNat_ofNat]
  omega

theorem decode_end_iff_toNat : decode word = .instr .endStream ↔ word.toNat = 3 * 2 ^ 24 := by
  rw [decode_end_iff, opcodeField_eq_iff, endReserved, extractLsb'_eq_iff]
  simp only [BitVec.toNat_ofNat]
  omega

end

theorem encode_start_toNat (cc : BitVec 16) : (encode (.start cc)).toNat = 1 * 2 ^ 24 + cc.toNat := by
  rw [encode, toNat_append_eq, toNat_append_eq]
  rfl

theorem encode_push_toNat (i : Byte) : (encode (.push i)).toNat = 2 * 2 ^ 24 + i.toNat := by
  rw [encode, toNat_append_eq, toNat_append_eq]
  rfl

theorem encode_end_toNat : (encode .endStream).toNat = 3 * 2 ^ 24 := rfl

/-- Settles O1: a word decodes to a command exactly where its number is that of the command's encoding. -/
theorem decodesExactlyItsEncoding : Obligations.DecodesExactlyItsEncoding := by
  unfold Obligations.DecodesExactlyItsEncoding
  intro word i
  rw [← BitVec.toNat_inj]
  cases i with
  | start cc => rw [decode_start_iff_toNat, encode_start_toNat]
  | push i => rw [decode_push_iff_toNat, encode_push_toNat]
  | endStream => rw [decode_end_iff_toNat, encode_end_toNat]

/-- Settles O2: four fixed words, decoded. -/
theorem tableRowWordsDecode : Obligations.TableRowWordsDecode := by
  unfold Obligations.TableRowWordsDecode
  decide

/-- A word that is no command's raises `ERR_ILLEGAL`, or is ignored in FAULT (R75, R206, R211). -/
theorem runWord_of_no_instr {word : CmdWord} (h : ∀ i, decode word ≠ .instr i) (s : State) :
    runWord word s = .next (if s.state = .fault then s else raiseFault .illegal s) := by
  obtain ⟨t, ht, ⟨i, hd, _⟩ | ⟨_, _, ⟨hs, rfl⟩ | ⟨hs, rfl⟩⟩⟩ := runWord_cases word s
  · exact absurd hd (h i)
  · rw [ht, if_pos hs]
  · rw [ht, if_neg hs]

/-- Settles O3: the number of a command's word has no bad field, and a word with none is a command's. -/
theorem illegalWordsRaiseIllegal : Obligations.IllegalWordsRaiseIllegal := by
  unfold Obligations.IllegalWordsRaiseIllegal
  intro word s op bad
  refine ⟨fun hbad => runWord_of_no_instr (fun i hd => ?_) s, fun hgood => ?_⟩
  · cases i with
    | start cc =>
      have hcc := cc.isLt
      have hn := decode_start_iff_toNat.mp hd
      omega
    | push b =>
      have hb := b.isLt
      have hn := decode_push_iff_toNat.mp hd
      omega
    | endStream =>
      have hn := decode_end_iff_toNat.mp hd
      omega
  · have hinstr : ∃ i, decode word = .instr i := by
      have hop : op = 1 ∨ op = 2 ∨ op = 3 := by omega
      rcases hop with hop | hop | hop
      · exact ⟨.start _, decode_start_iff.mpr
          ⟨opcodeField_eq_iff.mpr hop, extractLsb'_eq_iff.mpr (by simp only [BitVec.toNat_ofNat]; omega), rfl⟩⟩
      · exact ⟨.push _, decode_push_iff.mpr
          ⟨opcodeField_eq_iff.mpr hop, extractLsb'_eq_iff.mpr (by simp only [BitVec.toNat_ofNat]; omega), rfl⟩⟩
      · exact ⟨.endStream, decode_end_iff_toNat.mpr (by omega)⟩
    obtain ⟨i, hd⟩ := hinstr
    exact ⟨i, hd, runWord_instr hd s⟩

end Sys2Proof.Proofs

/-! The assembler's lines and pseudo-instructions (30_encoding.md R76, R77). -/

namespace Sys2Proof.Proofs

open Sys2Proof.Machine

theorem startWord_toNat {cc : Nat} (h : cc ≤ 65535) : (startWord cc).toNat = 1 * 2 ^ 24 + cc := by
  rw [startWord, BitVec.toNat_or, BitVec.toNat_ofNat, BitVec.toNat_ofNat, Nat.mod_eq_of_lt (a := cc) (by omega)]
  exact (Nat.shiftLeft_add_eq_or_of_lt (show cc < 2 ^ 24 by omega) 1).symm

theorem pushWord_toNat {i : Nat} (h : i ≤ 255) : (pushWord i).toNat = 2 * 2 ^ 24 + i := by
  rw [pushWord, BitVec.toNat_or, BitVec.toNat_ofNat, BitVec.toNat_ofNat, Nat.mod_eq_of_lt (a := i) (by omega)]
  exact (Nat.shiftLeft_add_eq_or_of_lt (show i < 2 ^ 24 by omega) 2).symm

theorem assemble_push (i : Nat) :
    (AsmLine.push i).assemble = if indexOperandOk i then some [pushWord i] else none := rfl

theorem assemble_start (cc : Nat) :
    (AsmLine.start cc).assemble = if colorOperandOk cc then some [startWord cc] else none := rfl

theorem assemble_end : AsmLine.endStream.assemble = some [endWord] := rfl

/-- Settles O5: each line's range and word by definition, its command by the word's number. -/
theorem assemblerLinesMakeTheirCommand : Obligations.AssemblerLinesMakeTheirCommand := by
  unfold Obligations.AssemblerLinesMakeTheirCommand
  refine ⟨fun cc => ?_, fun i => ?_, rfl, fun cc h => ?_, fun i h => ?_, by decide⟩
  · simp [assemble_start, colorOperandOk, startWord]
  · simp [assemble_push, indexOperandOk, pushWord]
  · apply decode_start_iff_toNat.mpr
    rw [BitVec.toNat_ofNat, Nat.mod_eq_of_lt (by omega)]
    exact startWord_toNat h
  · apply decode_push_iff_toNat.mpr
    rw [BitVec.toNat_ofNat, Nat.mod_eq_of_lt (by omega)]
    exact pushWord_toNat h

/-- The PUSH lines of a list of indices: their words in order, or none where one is out of range. -/
theorem mapM_assemble_push (is : List Nat) : is.mapM (fun i => (AsmLine.push i).assemble) =
    if is.all indexOperandOk then some (is.map fun i => [pushWord i]) else none := by
  induction is with
  | nil => rfl
  | cons i rest ih =>
    rw [List.mapM_cons, ih, assemble_push, List.all_cons]
    cases indexOperandOk i with
    | false => rfl
    | true => cases rest.all indexOperandOk <;> rfl

theorem assemble_pushs {is : List Nat} (h : is ≠ []) :
    (AsmLine.pushs is).assemble = if is.all indexOperandOk then some (is.map pushWord) else none := by
  have hne : is.isEmpty = false := List.isEmpty_eq_false_iff.mpr h
  simp [AsmLine.assemble, AsmLine.wellFormed, AsmLine.words, hne]

theorem assemble_encode (cc : Nat) (is : List Nat) : (AsmLine.encode cc is).assemble =
    if colorOperandOk cc && is.all indexOperandOk then some ([startWord cc] ++ is.map pushWord ++ [endWord])
    else none := rfl

/-- Settles O4: both sides give the words where every operand is in range, and none elsewhere. -/
theorem pseudoInstructionsExpand : Obligations.PseudoInstructionsExpand := by
  unfold Obligations.PseudoInstructionsExpand
  refine ⟨fun is h => ?_, fun cc is h => ?_, fun cc => ?_⟩
  · rw [assemble_pushs h, mapM_assemble_push]
    cases is.all indexOperandOk with
    | false => rfl
    | true => exact congrArg some (by rw [List.map_eq_flatMap, List.flatMap_def])
  · simp only [List.mapM_cons, List.mapM_nil, assemble_encode, assemble_start, assemble_pushs h, assemble_end]
    cases colorOperandOk cc <;> cases is.all indexOperandOk <;> simp
  · simp only [List.mapM_cons, List.mapM_nil, assemble_encode, assemble_start, assemble_end]
    cases colorOperandOk cc <;> simp

end Sys2Proof.Proofs

/-! What the commands of an open job send: whole sub-blocks, and at END the framing of what is left
(44_subblock.md R180 to R182). -/

namespace Sys2Proof.Proofs

open Sys2Proof.Machine Sys2Proof.Reference Sys2Proof.Laws

/-- From `s` to `t` the output queue grows by these full sub-blocks (R180). -/
structure SendsBlocks (blocks : List (List Byte)) (s t : State) : Prop where
  full : ∀ b ∈ blocks, b.length = 255
  queue : t.outQueue = s.outQueue ++ blocks.flatMap subBlock

theorem SendsBlocks.refl (s : State) : SendsBlocks [] s s := ⟨by simp, by simp⟩

theorem SendsBlocks.trans {a b : List (List Byte)} {s t u : State} (h1 : SendsBlocks a s t) (h2 : SendsBlocks b t u) :
    SendsBlocks (a ++ b) s u where
  full := List.forall_mem_append.mpr ⟨h1.full, h2.full⟩
  queue := by rw [h2.queue, h1.queue, List.flatMap_append, List.append_assoc]

/-- The bytes of full sub-blocks are the framing of their data (R182). -/
theorem plainWords_frame_flatten {blocks : List (List Byte)} (h : ∀ b ∈ blocks, b.length = 255) :
    plainWords (frame blocks.flatten) = blocks.flatMap subBlock := by
  have hframe := frame_blocks h []
  rwa [List.append_nil, show frame [] = [] from rfl, plainWords_nil, List.append_nil] at hframe

/-- At most 255 bytes: FinalFrame's one sub-block, or none, is their framing (R181, R182). -/
theorem plainWords_frame_last {data : List Byte} (h : data.length ≤ 255) :
    plainWords (frame data) = if 0 < data.length then subBlock data else [] := by
  rcases Nat.lt_or_eq_of_le h with hlt | hfull
  · rw [frame_short hlt]
    split <;> rfl
  · have hblock := plainWords_frame_flatten (blocks := [data]) (by simpa using hfull)
    rw [if_pos (by omega)]
    simpa using hblock

theorem writeCode_buf_length (v : Nat) (s : State) : (writeCode v s).buf.length < 255 := by
  obtain ⟨blocks, rest, -, hrest, -, hd⟩ := drain_spec (writeBits v s.cs.toNat s)
  rwa [writeCode, hd]

theorem writeCode_sends (v : Nat) (s : State) : ∃ blocks, SendsBlocks blocks s (writeCode v s) := by
  obtain ⟨blocks, rest, hfull, -, -, hd⟩ := drain_spec (writeBits v s.cs.toNat s)
  exact ⟨blocks, hfull, by rw [writeCode, hd, writeBits_outQueue]⟩

theorem mismatchHead_sends (i : Byte) (s : State) : ∃ blocks, SendsBlocks blocks s (mismatchHead i s) := by
  obtain ⟨blocks, hfull, hqueue⟩ := writeCode_sends s.w.toNat s
  exact ⟨blocks, hfull, hqueue⟩

theorem ceilingReset_sends (s : State) : ∃ blocks, SendsBlocks blocks s (ceilingReset s) := by
  obtain ⟨blocks, hfull, hqueue⟩ := writeCode_sends s.c.toNat s
  exact ⟨blocks, hfull, hqueue⟩

theorem pushFirst_sends (i : Byte) (s : State) :
    ∃ blocks, SendsBlocks blocks (outAppend (s.mcs.setWidth 8) false s) (pushFirst i s) := by
  obtain ⟨blocks, hfull, hqueue⟩ := writeCode_sends s.c.toNat (outAppend (s.mcs.setWidth 8) false s)
  exact ⟨blocks, hfull, hqueue⟩

theorem pushNext_sends (i : Byte) (s : State) : ∃ blocks, SendsBlocks blocks s (pushNext i s) := by
  rcases pushNext_cases i s with ⟨k, _, h⟩ | ⟨_, h⟩
  · exact ⟨[], by simp, by simp [h]⟩
  · obtain ⟨blocks, hhead⟩ := mismatchHead_sends i s
    rcases pushMismatch_cases i s with ⟨_, hm⟩ | ⟨_, _, hm⟩ | ⟨_, _, hm⟩
    · obtain ⟨more, hreset⟩ := ceilingReset_sends (mismatchHead i s)
      rw [h, hm]
      exact ⟨_, hhead.trans hreset⟩
    · rw [h, hm]
      exact ⟨blocks, hhead.full, hhead.queue⟩
    · rw [h, hm]
      exact ⟨blocks, hhead⟩

theorem closeCodes_sends (s : State) : ∃ blocks, SendsBlocks blocks s (closeCodes s) := by
  obtain ⟨blocks, h1⟩ := writeCode_sends s.w.toNat s
  obtain ⟨more, h2⟩ := writeCode_sends (s.c.toNat + 1) (writeCode s.w.toNat s)
  exact ⟨_, h1.trans h2⟩

/-- At most one more byte: `BUF` fits one sub-block when END frames it. -/
theorem flush_closeCodes_length (s : State) : (flush (closeCodes s)).buf.length ≤ 255 := by
  have hbuf : (closeCodes s).buf.length < 255 := writeCode_buf_length _ _
  rw [flush_buf]
  split
  · rw [List.length_append, List.length_singleton]
    omega
  · omega

/-- END's output: the framing of the sub-blocks its codes complete and of what is left, then the terminator (R155). -/
theorem closeJob_outQueue_frame {blocks : List (List Byte)} {s : State} (h : SendsBlocks blocks s (closeCodes s)) :
    (closeJob s).outQueue = s.outQueue ++ plainWords (frame (blocks.flatten ++ (flush (closeCodes s)).buf)) ++
      [{ byte := 0x00#8, last := true }] := by
  rw [closeJob_outQueue, h.queue, frame_blocks h.full, plainWords_frame_last (flush_closeCodes_length s),
    List.append_assoc s.outQueue]

end Sys2Proof.Proofs

/-! The port word and its last flag (30_encoding.md R83). -/

namespace Sys2Proof.Proofs

open Sys2Proof.Machine Sys2Proof.Laws

theorem portWord_byte (o : OutWord) : o.portWord.extractLsb' 0 8 = o.byte := by
  have hbyte := o.byte.isLt
  apply extractLsb'_eq_of_toNat
  rw [OutWord.portWord, toNat_append_eq]
  omega

theorem portWord_last (o : OutWord) : o.portWord.extractLsb' 8 1 = BitVec.ofBool o.last := by
  have hbyte := o.byte.isLt
  have hlast := (BitVec.ofBool o.last).isLt
  apply extractLsb'_eq_of_toNat
  rw [OutWord.portWord, toNat_append_eq]
  omega

theorem last_of_mem_plainWords {bytes : List Byte} {o : OutWord} (h : o ∈ plainWords bytes) : o.last = false := by
  obtain ⟨b, -, rfl⟩ := List.mem_map.mp h
  rfl

theorem SendsBlocks.plain {blocks : List (List Byte)} {s t : State} (h : SendsBlocks blocks s t) :
    ∃ bytes, t.outQueue = s.outQueue ++ plainWords bytes :=
  ⟨_, by rw [plainWords_frame_flatten h.full, h.queue]⟩

/-- Every command but the END of an open job appends words with `last = 0` only. -/
theorem went_appends_plain {i : Instr} {s t : State} (hw : Went s i t) (h : ¬(i = .endStream ∧ s.state = .scanning)) :
    ∃ bytes, t.outQueue = s.outQueue ++ plainWords bytes := by
  cases hw with
  | ignored => exact (SendsBlocks.refl s).plain
  | raised => exact (SendsBlocks.refl s).plain
  | opened => exact (SendsBlocks.refl s).plain
  | first b =>
    obtain ⟨blocks, hsends⟩ := pushFirst_sends b s
    obtain ⟨bytes, hq⟩ := hsends.plain
    refine ⟨s.mcs.setWidth 8 :: bytes, ?_⟩
    rw [hq, outAppend_outQueue, List.append_assoc]
    rfl
  | next b =>
    obtain ⟨blocks, hsends⟩ := pushNext_sends b s
    exact hsends.plain
  | closed hs => exact absurd ⟨rfl, hs⟩ h

/-- Settles O39: END of an open job ends with the terminator, every other command appends plain words. -/
theorem lastFlagOnlyOnTerminator : Obligations.LastFlagOnlyOnTerminator := by
  unfold Obligations.LastFlagOnlyOnTerminator
  refine ⟨fun o => ⟨portWord_byte o, by rw [portWord_last]; cases o.last <;> decide⟩, fun i s => ?_⟩
  by_cases h : i = .endStream ∧ s.state = .scanning
  · obtain ⟨rfl, hs⟩ := h
    obtain ⟨blocks, hsends⟩ := closeCodes_sends s
    refine ⟨closeJob s, _, execEnd_close hs, (closeJob_outQueue_frame hsends).trans (List.append_assoc _ _ _),
      fun _ _ => ⟨_, rfl⟩, ?_⟩
    rintro (hi | hns)
    · exact absurd rfl hi
    · exact absurd hs hns
  · obtain ⟨t, ht, hw⟩ := exec_went i s
    obtain ⟨bytes, hq⟩ := went_appends_plain hw h
    exact ⟨t, _, ht, hq, fun hi hs => absurd ⟨hi, hs⟩ h, fun _ _ => last_of_mem_plainWords⟩

end Sys2Proof.Proofs

/-! Every step keeps the shape of `OUT` (30_encoding.md R78, R83, 60_exceptions.md R210). -/

namespace Sys2Proof.Proofs

open Sys2Proof.Machine Sys2Proof.Safety Sys2Proof.Reference Sys2Proof.Laws

/-- Finished jobs, then the output of an open one: what `OUT` is in SCANNING, and after a fault in mid-job (R210). -/
def OpenOut (mcs : BitVec 4) (words : List OutWord) : Prop :=
  ∃ before now, finished before ∧ partialJob mcs now ∧ words = before ++ now

theorem finished_nil : finished [] := ⟨[], by simp, rfl⟩

theorem finished_append_job {words : List OutWord} (h : finished words) {mcs : Byte} (h2 : 2 ≤ mcs.toNat)
    (h8 : mcs.toNat ≤ 8) {data : List Byte} (hdata : data ≠ []) : finished (words ++ jobWords mcs data) := by
  obtain ⟨jobs, hjobs, rfl⟩ := h
  refine ⟨jobs ++ [(mcs, data)], ?_, by simp⟩
  intro j hj
  rcases List.mem_append.mp hj with hj | hj
  · exact hjobs j hj
  · obtain rfl := List.mem_singleton.mp hj
    exact ⟨h2, h8, hdata⟩

/-- An open job goes on with further full sub-blocks. -/
theorem OpenOut.append_blocks {mcs : BitVec 4} {words : List OutWord} (h : OpenOut mcs words)
    {blocks : List (List Byte)} (hfull : ∀ b ∈ blocks, b.length = 255) :
    OpenOut mcs (words ++ blocks.flatMap subBlock) := by
  obtain ⟨before, now, hbefore, ⟨h2, h8, sent, hsent, rfl⟩, rfl⟩ := h
  refine ⟨before, _, hbefore, ⟨h2, h8, sent ++ blocks, List.forall_mem_append.mpr ⟨hsent, hfull⟩, rfl⟩, ?_⟩
  rw [List.flatMap_append, List.append_assoc, List.append_assoc]

/-- An open job is finished by the framing of further data and the terminator. -/
theorem OpenOut.finish {mcs : BitVec 4} {words : List OutWord} (h : OpenOut mcs words) {data : List Byte}
    (hdata : data ≠ []) :
    finished (words ++ plainWords (frame data) ++ [{ byte := 0x00#8, last := true }]) := by
  obtain ⟨before, now, hbefore, ⟨h2, h8, sent, hsent, rfl⟩, rfl⟩ := h
  have hmcs : (mcs.setWidth 8).toNat = mcs.toNat := BitVec.toNat_setWidth_of_le (by omega)
  have hjob := finished_append_job hbefore (mcs := mcs.setWidth 8) (by omega) (by omega)
    (data := sent.flatten ++ data) (by simp [hdata])
  have hwords : jobWords (mcs.setWidth 8) (sent.flatten ++ data) =
      plainWords [mcs.setWidth 8] ++ sent.flatMap subBlock ++ plainWords (frame data) ++
        [{ byte := 0x00#8, last := true }] := by
    rw [jobWords, ← List.singleton_append, plainWords_append, frame_blocks hsent]
    simp only [List.append_assoc]
  rw [hwords] at hjob
  simpa only [List.append_assoc] using hjob

/-- A code of at least one bit leaves a byte to be sent: in a full sub-block, or in `BUF` once the last byte is
completed. -/
theorem writeCode_leaves_data (v : Nat) {s : State} (hacc : s.acc.toNat < 2 ^ s.nb.toNat) (hcs : 0 < s.cs.toNat) :
    ∃ blocks, SendsBlocks blocks s (writeCode v s) ∧ blocks.flatten ++ (flush (writeCode v s)).buf ≠ [] := by
  obtain ⟨blocks, hfull, hq, -, hlen, hnb, -, -⟩ := writeCode_spec v s hacc
  refine ⟨blocks, ⟨hfull, hq⟩, fun hnil => ?_⟩
  have hcount := congrArg List.length hnil
  rw [List.length_append, flatten_length hfull, flush_buf] at hcount
  split at hcount
  · simp at hcount
  · rw [List.length_nil] at hcount
    omega

/-- END of an open job sends the framing of some data and the terminator (R155, R183). -/
theorem closeJob_sends_data {s : State} (hacc : s.acc.toNat < 2 ^ s.nb.toNat) (hcs : 0 < s.cs.toNat) :
    ∃ data, data ≠ [] ∧
      (closeJob s).outQueue = s.outQueue ++ plainWords (frame data) ++ [{ byte := 0x00#8, last := true }] := by
  obtain ⟨blocks, h1⟩ := writeCode_sends s.w.toNat s
  obtain ⟨more, h2, hdata⟩ := writeCode_leaves_data (s.c.toNat + 1) (writeCode_packed s.w.toNat hacc).acc_lt hcs
  refine ⟨_, ?_, closeJob_outQueue_frame (h1.trans h2)⟩
  rw [List.flatten_append, List.append_assoc]
  exact List.append_ne_nil_of_right_ne_nil _ hdata

theorem SendsBlocks.out {blocks : List (List Byte)} {s t : State} (h : SendsBlocks blocks s t)
    (htaken : t.taken = s.taken) : t.out = s.out ++ blocks.flatMap subBlock := by
  rw [State.out, State.out, h.queue, htaken, List.append_assoc]

/-- The shape of `OUT` depends on `STATE`, `MCS` and `OUT` only. -/
theorem outOk_congr {s t : State} (h : OutOk s) (hs : t.state = s.state) (hmcs : t.mcs = s.mcs) (hout : t.out = s.out) :
    OutOk t := by
  obtain ⟨h1, h2, h3, h4, h5⟩ := h
  exact ⟨by rwa [hs, hout], by rwa [hs, hout], by rwa [hs, hmcs, hout], by rwa [hs, hout], by rwa [hs, hmcs, hout]⟩

theorem outOk_armed {s : State} (hs : s.state = .armed) (h : finished s.out) : OutOk s where
  idle := by simp [hs]
  armed := fun _ => h
  scanning := by simp [hs]
  done := by simp [hs]
  fault := by simp [hs]

theorem outOk_scanning {s : State} (hs : s.state = .scanning) (h : OpenOut s.mcs s.out) : OutOk s where
  idle := by simp [hs]
  armed := by simp [hs]
  scanning := fun _ => h
  done := by simp [hs]
  fault := by simp [hs]

theorem outOk_done {s : State} (hs : s.state = .done) (h : finished s.out) (hne : s.out ≠ []) : OutOk s where
  idle := by simp [hs]
  armed := by simp [hs]
  scanning := by simp [hs]
  done := fun _ => ⟨h, hne⟩
  fault := by simp [hs]

section

variable {s : State} (h : OutOk s)

include h

/-- With no job open every job of `OUT` is finished. -/
theorem finished_of_closed (hs : s.state = .idle ∨ s.state = .done) : finished s.out := by
  rcases hs with hs | hs
  · rw [h.idle hs]
    exact finished_nil
  · exact (h.done hs).1

/-- A fault keeps the output of the state it meets (R210). -/
theorem outOk_raiseFault (e : Err) : OutOk (raiseFault e s) where
  idle := by simp
  armed := by simp
  scanning := by simp
  done := by simp
  fault := by
    rintro -
    show finished s.out ∨ OpenOut s.mcs s.out
    cases hs : s.state with
    | idle => exact .inl (finished_of_closed h (.inl hs))
    | armed => exact .inl (h.armed hs)
    | scanning => exact .inr (h.scanning hs)
    | done => exact .inl (finished_of_closed h (.inr hs))
    | fault => exact h.fault hs

theorem outOk_openJob (hs : s.state = .idle ∨ s.state = .done) (cn : Nat) : OutOk (openJob cn s) := by
  have hfinished : finished s.out := finished_of_closed h hs
  exact outOk_armed rfl hfinished

theorem outOk_pushFirst (hs : s.state = .armed) (hjob : JobOk s) (i : Byte) : OutOk (pushFirst i s) := by
  obtain ⟨blocks, hsends⟩ := pushFirst_sends i s
  have hsize : partialJob s.mcs (plainWords [s.mcs.setWidth 8]) := by
    refine ⟨?_, ?_, [], by simp, by simp⟩
    · rw [hjob.mcs_eq]
      exact minCodeSize_ge hjob.c_range.1
    · rw [hjob.mcs_eq]
      exact minCodeSize_le hjob.c_range.2
  have hopen : OpenOut s.mcs (outAppend (s.mcs.setWidth 8) false s).out :=
    ⟨s.out, _, h.armed hs, hsize, (List.append_assoc _ _ _).symm⟩
  apply outOk_scanning rfl
  rw [hsends.out rfl, pushFirst_mcs]
  exact hopen.append_blocks hsends.full

theorem outOk_pushNext (hs : s.state = .scanning) (i : Byte) : OutOk (pushNext i s) := by
  obtain ⟨blocks, hsends⟩ := pushNext_sends i s
  apply outOk_scanning (by rw [pushNext_state, hs])
  rw [hsends.out (pushNext_taken i s), pushNext_mcs]
  exact OpenOut.append_blocks (h.scanning hs) hsends.full

theorem outOk_closeJob (hs : s.state = .scanning) (hacc : s.acc.toNat < 2 ^ s.nb.toNat) (hjob : JobOk s) :
    OutOk (closeJob s) := by
  have hcs : 0 < s.cs.toNat := by
    have := hjob.cs_eq
    omega
  obtain ⟨data, hdata, hq⟩ := closeJob_sends_data hacc hcs
  have hout : (closeJob s).out = s.out ++ plainWords (frame data) ++ [{ byte := 0x00#8, last := true }] := by
    simp only [State.out, hq, closeJob_taken, List.append_assoc]
  apply outOk_done rfl
  · rw [hout]
    exact OpenOut.finish (h.scanning hs) hdata
  · rw [hout]
    simp

/-- Every way a command can go keeps the shape of `OUT`. -/
theorem went_keeps_outOk (hinv : Inv s) {i : Instr} {t : State} (hw : Went s i t) : OutOk t := by
  cases hw with
  | ignored => exact h
  | raised => exact outOk_raiseFault h _
  | opened _ hs => exact outOk_openJob h hs _
  | first b hs => exact outOk_pushFirst h hs (hinv.job (.inl hs)) b
  | next b hs => exact outOk_pushNext h hs b
  | closed hs => exact outOk_closeJob h hs hinv.acc_lt (hinv.job (.inr (.inl hs)))

theorem runWord_keeps_outOk (hinv : Inv s) {word : CmdWord} {t : State} (hr : runWord word s = .next t) : OutOk t := by
  obtain ⟨t', ht', hcase⟩ := runWord_cases word s
  rw [hr] at ht'
  cases ht'
  rcases hcase with ⟨i, _, hexec⟩ | ⟨_, _, ⟨_, rfl⟩ | ⟨_, rfl⟩⟩
  · exact went_keeps_outOk h hinv (went_of_exec hexec)
  · exact h
  · exact outOk_raiseFault h _

theorem hostNext_keeps_outOk : OutOk (hostNext s) := by
  rcases hostNext_cases s with ⟨_, hn⟩ | ⟨_, _, _, hn⟩ | ⟨_, _, _, hn⟩ | ⟨_, _, _, _, hq, hn⟩ | ⟨_, _, hn⟩ | ⟨_, _, hn⟩
  · rwa [hn]
  · rw [hn]
    exact outOk_congr h rfl rfl rfl
  · rw [hn]
    exact outOk_congr h rfl rfl rfl
  · rw [hn]
    exact outOk_congr h rfl rfl (by simp [State.out, hq])
  · rw [hn]
    exact outOk_congr h rfl rfl rfl
  · rw [hn]
    exact outOk_congr resetHasOutputShape rfl rfl rfl

end

/-- Settles O49: an accepted word keeps the shape by its effect's case, the host's actions keep `OUT` or reset the
block. -/
theorem everyStepKeepsOutputShape : Obligations.EveryStepKeepsOutputShape := by
  unfold Obligations.EveryStepKeepsOutputShape
  intro s t hinv h hstep
  rcases step_cases s with ⟨word, rest, _, _, _, hrun, _⟩ | ⟨_, hhost⟩
  · have hinv' : Inv { s with cmds := rest } := inv_ports hinv hinv.queue_le s.taken rest s.host s.statusLog
    have h' : OutOk { s with cmds := rest } := outOk_congr h rfl rfl rfl
    exact runWord_keeps_outOk h' hinv' (hrun.symm.trans hstep)
  · rw [hstep] at hhost
    cases hhost
    exact hostNext_keeps_outOk h

end Sys2Proof.Proofs

/-! The Bit Packer: WriteBits and Flush against the bit stream (41_bit_packer.md R100, R101). -/

namespace Sys2Proof.Proofs

open Sys2Proof.Machine Sys2Proof.Safety Sys2Proof.Reference Sys2Proof.Laws

/-- The stream held by the packer grows by the low `w` bits of `v` (R100, R104). -/
theorem pendingBits_writeBits (v w : Nat) {s : State} (ha : s.acc.toNat < 2 ^ s.nb.toNat) :
    pendingBits (writeBits v w s) = pendingBits s ++ codeBits v w := by
  obtain ⟨more, hbuf, -, -, -, hbits⟩ := writeBits_spec v w s ha
  rw [pendingBits_eq, pendingBits_eq, hbuf, byteBits_append, List.append_assoc, hbits, List.append_assoc]

/-- Settles O26: the bytes the loop completes come after those of `BUF`, and with the bits left they spell the old pending
bits and the value's. -/
theorem writeBitsAppendsLowBits : Obligations.WriteBitsAppendsLowBits := by
  unfold Obligations.WriteBitsAppendsLowBits
  intro v w s ha
  obtain ⟨more, hbuf, hlen, hnb, hacc, -⟩ := writeBits_spec v w s ha
  refine ⟨pendingBits_writeBits v w ha, ?_, ?_, ?_, hacc, rfl⟩
  · exact ⟨more, hbuf.symm⟩
  · rw [hbuf, List.length_append, hlen]
  · rw [hnb]
    omega

@[simp] theorem packBits_length (bits : List Bool) : (packBits bits).length = (bits.length + 7) / 8 := by
  simp [packBits]

/-- The pending bits of `ACC`, packed: no byte where there is none, else `ACC` itself, its bits from `NB` up being 0. -/
theorem packBits_pending {acc : Byte} {nb : BitVec 3} (ha : acc.toNat < 2 ^ nb.toNat) :
    packBits (codeBits acc.toNat nb.toNat) = if 0 < nb.toNat then [acc] else [] := by
  split
  next hpos =>
    have hlen : (codeBits acc.toNat nb.toNat).length = nb.toNat := codeBits_length _ _
    have hne : codeBits acc.toNat nb.toNat ≠ [] := List.ne_nil_of_length_pos (by rwa [hlen])
    rw [packBits_short (by rw [hlen]; exact nb.isLt), if_neg hne, byteOfBits_codeBits _ _ ha, BitVec.ofNat_toNat,
      BitVec.setWidth_eq]
  next hzero =>
    rw [Nat.eq_zero_of_not_pos hzero, codeBits_zero]
    rfl

/-- Flush appends the pending bits as `packBits` packs them (R101, R104). -/
theorem flush_buf_packBits {s : State} (ha : s.acc.toNat < 2 ^ s.nb.toNat) :
    (flush s).buf = s.buf ++ packBits (codeBits s.acc.toNat s.nb.toNat) := by
  rw [flush_buf, packBits_pending ha]
  split
  · rfl
  · rw [List.append_nil]

/-- Settles O27: `ACC` is the byte that its `NB` bits and zeros make, and fewer than eight bits make at most one byte. -/
theorem flushCompletesLastByte : Obligations.FlushCompletesLastByte := by
  unfold Obligations.FlushCompletesLastByte
  intro s ha
  refine ⟨flush_buf_packBits ha, ?_, rfl⟩
  have hnb : s.nb.toNat < 8 := s.nb.isLt
  rw [flush_buf_packBits ha, List.length_append, packBits_length, codeBits_length]
  split <;> omega

end Sys2Proof.Proofs

/-! The Sequence Dictionary: DictReset, the table form's keys, DictInsert and the capacity (42_dictionary.md R120 to R124). -/

namespace Sys2Proof.Proofs

open Sys2Proof.Machine Sys2Proof.Safety Sys2Proof.Laws

/-! DictReset (R120). -/

/-- Only the literals are there, so a sequence of one byte is found exactly below the color count. -/
theorem dictLookup_literals_single {c : Nat} (hc : c ≤ 256) (j : Byte) :
    dictLookup (literals c) [j] = if j.toNat < c then some (BitVec.ofNat 12 j.toNat) else none := by
  rw [dictLookup_single, dictFind_literals_none hc, BitVec.ofNat_toNat]
  rfl

/-- No literal extends a sequence, so a longer sequence is not found. -/
theorem dictLookup_literals_long (c : Nat) (j k : Byte) (rest : List Byte) :
    dictLookup (literals c) (j :: k :: rest) = none := by
  rw [dictLookup, dictWalk]
  cases dictFind (literals c) none j with
  | none => rfl
  | some w =>
    change dictWalk (literals c) (some w) (k :: rest) = none
    rw [dictWalk, dictFind_literals_some]

/-- Settles O28, by the length of the sequence: none, one byte, more. -/
theorem dictResetLeavesOnlyLiterals : Obligations.DictResetLeavesOnlyLiterals := by
  unfold Obligations.DictResetLeavesOnlyLiterals
  intro s c q hc
  refine ⟨?_, rfl, ?_⟩
  · rw [dictReset_nc, BitVec.toNat_ofNat]
    omega
  · rw [dictReset_dict]
    rcases q with _ | ⟨j, _ | ⟨k, rest⟩⟩
    · exact dictLookup_nil _
    · exact dictLookup_literals_single hc j
    · exact dictLookup_literals_long _ j k rest

/-! The keys of the table form (R123). -/

theorem ne_nil_of_dictLookup_some {d : List DictEntry} {p : List Byte} {w : Code} (h : dictLookup d p = some w) :
    p ≠ [] := by
  rintro rfl
  cases h

/-- Settles O29: the walk along `P` ends at `D(P)`, and its last turn looks up the key. -/
theorem tableKeyAgreesWithSequence : Obligations.TableKeyAgreesWithSequence := by
  unfold Obligations.TableKeyAgreesWithSequence
  intro d p w i h
  rw [dictLookup_concat (ne_nil_of_dictLookup_some h), h, Option.bind_some]

/-! DictInsert (R122). -/

/-- DictInsert under a key that is not there adds this key and no other. -/
theorem dictFind_dictInsert {s : State} {w : Code} {i : Byte} (hf : dictFind s.dict (some w) i = none) (k : Code)
    (pre : Option Code) (j : Byte) :
    dictFind (dictInsert w i k s).dict pre j =
      if some w = pre ∧ i = j then some k else dictFind s.dict pre j := by
  rw [dictInsert_dict, dictFind_append, dictFind_single]
  split
  next h =>
    obtain ⟨rfl, rfl⟩ := h
    rw [hf, Option.none_or]
  next => rw [Option.or_none]

/-- No entry extends a sequence of an unused code (R26.2). -/
theorem dictFind_unused {c nc : Nat} {d : List DictEntry} (h : DictOk c nc d) {k : Code} (hk : k ∉ dictCodes d)
    (j : Byte) : dictFind d (some k) j = none := by
  by_contra hne
  obtain ⟨k', hfind⟩ := Option.ne_none_iff_exists'.mp hne
  obtain ⟨e, he, hpre, -, -⟩ := dictFind_entry hfind
  rcases dictOk_entry_cases h he with hl | ⟨q, hq, hpre', -⟩
  · rw [literals_pre hl] at hpre
    cases hpre
  · rw [hpre] at hpre'
    cases hpre'
    exact hk hq

/-- The next unused code is no entry's (R26.1). -/
theorem nextCode_not_mem {c nc : Nat} {d : List DictEntry} (h : DictOk c nc d) (hc : c + 2 ≤ nc) {k : Code}
    (hk : k.toNat = nc) : k ∉ dictCodes d := by
  intro hm
  have := dictOk_code_bounds h hm
  omega

/-- DictInsert of `P ++ [i]` under an unused code changes that sequence's lookup only, by induction on the sequence looked
up. No entry extends the new one, and no sequence but `P` has the code of `P`. -/
theorem dictLookup_dictInsert {c nc : Nat} {s : State} (h : DictOk c nc s.dict) {p : List Byte} {w k : Code} {i : Byte}
    (hp : dictLookup s.dict p = some w) (hnew : dictLookup s.dict (p ++ [i]) = none) (hk : k ∉ dictCodes s.dict)
    (q : List Byte) :
    dictLookup (dictInsert w i k s).dict q = if q = p ++ [i] then some k else dictLookup s.dict q := by
  have hkey : dictFind s.dict (some w) i = none := (tableKeyAgreesWithSequence s.dict p w i hp).symm.trans hnew
  have hwk : w ≠ k := fun hwk => hk (hwk ▸ dictLookup_mem hp)
  have hpnil : p ≠ [] := ne_nil_of_dictLookup_some hp
  have honly (a : List Byte) : a = p ↔ dictLookup s.dict a = some w :=
    ⟨fun ha => ha ▸ hp, fun ha => dictLookup_inj h ha hp⟩
  induction q using List.reverseRecOn with
  | nil => simp
  | append_singleton a j ih =>
    simp only [List.append_singleton_inj]
    rcases eq_or_ne a [] with rfl | ha
    · rw [List.nil_append, dictLookup_single, dictLookup_single, dictFind_dictInsert hkey, if_neg (by simp),
        if_neg (fun hq => hpnil hq.1.symm)]
    rw [dictLookup_concat ha, dictLookup_concat ha, ih]
    simp only [honly a]
    by_cases hafter : a = p ++ [i]
    · subst hafter
      rw [if_pos rfl, hnew, Option.bind_some, Option.bind_none, dictFind_dictInsert hkey, dictFind_unused h hk]
      simp [hwk]
    · rw [if_neg hafter]
      cases dictLookup s.dict a with
      | none => simp
      | some w' => simp only [Option.bind_some, dictFind_dictInsert hkey, eq_comm (a := some w), eq_comm (a := i)]

/-- `NC` fits a code between commands, so narrowing it to a code keeps its value (R124). -/
theorem nextCode_toNat {s : State} (h : JobOk s) : (s.nc.setWidth 12).toNat = s.nc.toNat := by
  have hle : s.nc.toNat ≤ 4095 := h.nc_range.2
  rw [BitVec.toNat_setWidth]
  omega

/-- DictInsert of `P ++ [i]` as a mismatch performs it (R150). -/
theorem dictLookup_insert_nextCode {s : State} (h : JobOk s) {p : List Byte} {i : Byte}
    (hp : dictLookup s.dict p = some s.w) (hnew : dictLookup s.dict (p ++ [i]) = none) (q : List Byte) :
    dictLookup (dictInsert s.w i (s.nc.setWidth 12) s).dict q =
      if q = p ++ [i] then some (s.nc.setWidth 12) else dictLookup s.dict q :=
  dictLookup_dictInsert h.dict_ok hp hnew (nextCode_not_mem h.dict_ok h.nc_range.1 (nextCode_toNat h)) q

/-- Settles O30: `NC` is an unused code between commands. -/
theorem dictInsertAddsOneSequence : Obligations.DictInsertAddsOneSequence := by
  unfold Obligations.DictInsertAddsOneSequence
  intro s p i hjob hp hnew
  refine ⟨fun q => ?_, rfl⟩
  rw [BitVec.ofNat_toNat]
  exact dictLookup_insert_nextCode hjob hp hnew q

/-! The capacity (R124). -/

/-- The entries that are no literals have the codes from `C + 2` up (R26.1). -/
theorem dictOk_added_code {c nc : Nat} {d : List DictEntry} (h : DictOk c nc d) {e : DictEntry} (he : e ∈ d.drop c) :
    c + 2 ≤ e.code.toNat ∧ e.code.toNat < nc := by
  have hcodes : (d.drop c).map (fun e => e.code.toNat) = List.range' (c + 2) (nc - (c + 2)) := by
    rw [List.map_drop, h.codes, List.drop_left' List.length_range]
  have hm : e.code.toNat ∈ (d.drop c).map (fun e => e.code.toNat) := List.mem_map.mpr ⟨e, he, rfl⟩
  rw [hcodes, List.mem_range'_1] at hm
  omega

/-- The capacity of the dictionary of a job between commands. -/
theorem jobOk_capacity {s : State} (h : JobOk s) :
    s.nc.toNat ≤ 4095 ∧ s.dict.length ≤ s.c.toNat + (4096 - s.c.toNat - 2) ∧
      ∀ e ∈ s.dict.drop s.c.toNat, s.c.toNat + 2 ≤ e.code.toNat ∧ e.code.toNat < s.nc.toNat := by
  have hle : s.nc.toNat ≤ 4095 := h.nc_range.2
  refine ⟨hle, ?_, fun e => dictOk_added_code h.dict_ok⟩
  rw [dictOk_length h.dict_ok]
  omega

/-- A mismatch at the ceiling leaves what DictReset leaves (R152). -/
theorem pushMismatch_ceiling_dict {i : Byte} {s : State} (h : JobOk s) (hnc : s.nc.toNat = 4095) :
    (pushMismatch i s).dict = literals s.c.toNat ∧ (pushMismatch i s).nc.toNat = s.c.toNat + 2 := by
  have hc := h.c_range.2
  rw [pushMismatch_ceiling hnc]
  refine ⟨rfl, ?_⟩
  rw [ceilingReset_nc, mismatchHead_c, BitVec.toNat_ofNat]
  omega

/-- A mismatch below the ceiling leaves the dictionary as DictInsert makes it, and `NC` one up (R150). -/
theorem pushMismatch_below_dict {i : Byte} {s : State} (h : JobOk s) (hnc : s.nc.toNat ≠ 4095) :
    (pushMismatch i s).dict = (dictInsert s.w i (s.nc.setWidth 12) s).dict ∧
      (pushMismatch i s).nc.toNat = s.nc.toNat + 1 := by
  have hle : s.nc.toNat ≤ 4095 := h.nc_range.2
  have hup : (s.nc + 1).toNat = s.nc.toNat + 1 := BitVec.toNat_add_of_lt (by simp; omega)
  rcases pushMismatch_cases i s with ⟨hceil, _⟩ | ⟨_, _, hm⟩ | ⟨_, _, hm⟩
  · exact absurd hceil hnc
  · rw [hm]
    exact ⟨rfl, hup⟩
  · rw [hm]
    exact ⟨rfl, hup⟩

/-- Settles O32: the legal values that every step keeps bound the dictionary, and a PUSH of a sequence that is not there
is a mismatch, at the ceiling or below it. -/
theorem dictionaryCapacity : Obligations.DictionaryCapacity := by
  unfold Obligations.DictionaryCapacity
  refine ⟨fun s t hinv hstep hin => jobOk_capacity ((everyStepKeepsLegalValues s t hinv hstep).job hin), ?_⟩
  intro s i p hinv hs hi hp hnew
  have hjob : JobOk s := hinv.job (.inr (.inl hs))
  have hcode : (dictLookup (dictInsert s.w i (s.nc.setWidth 12) s).dict (p ++ [i])).map BitVec.toNat =
      some s.nc.toNat := by
    rw [dictLookup_insert_nextCode hjob hp hnew, if_pos rfl, Option.map_some, nextCode_toNat hjob]
  have hmiss : exec (.push i) s = .next (pushMismatch i s) := by
    have hkey := (tableKeyAgreesWithSequence s.dict p s.w i hp).symm.trans hnew
    rw [execPush_next hs hi, pushNext, hkey]
  refine ⟨hcode, _, hmiss, pushMismatch_ceiling_dict hjob, fun hnc => ?_⟩
  obtain ⟨hdict, hup⟩ := pushMismatch_below_dict hjob hnc (i := i)
  exact ⟨by rw [hdict, hcode], hup⟩

end Sys2Proof.Proofs

/-! What a job does does not depend on the ports it finds (43_driver.md R163). -/

namespace Sys2Proof.Proofs

open Sys2Proof.Machine Sys2Proof.Safety Sys2Proof.Reference Sys2Proof.Laws

/-- The registers of `s` at the ports of `p`: what `s` has queued comes after what is queued there. -/
def atPorts (p s : State) : State :=
  { s with
    outQueue := p.outQueue ++ s.outQueue, taken := p.taken, cmds := p.cmds, host := p.host, statusLog := p.statusLog }

section

variable (p s : State)

@[simp] theorem atPorts_state : (atPorts p s).state = s.state := rfl
@[simp] theorem indexInRange_atPorts (i : Byte) : indexInRange i (atPorts p s) = indexInRange i s := rfl

/-! Each operation does at other ports what it does at its own: it only appends to the queue, and reads no port. -/

theorem drainLoop_append_queue (fuel : Nat) (buf : List Byte) (before queue : List OutWord) :
    drainLoop fuel buf (before ++ queue) =
      ((drainLoop fuel buf queue).1, before ++ (drainLoop fuel buf queue).2) := by
  induction fuel generalizing buf queue with
  | zero => rfl
  | succ f ih =>
    rw [drainLoop, drainLoop]
    split
    · rw [List.append_assoc, ih]
    · rfl

theorem drain_atPorts : drain (atPorts p s) = atPorts p (drain s) := by
  simp only [drain, atPorts, drainLoop_append_queue]

theorem writeCode_atPorts (v : Nat) : writeCode v (atPorts p s) = atPorts p (writeCode v s) :=
  drain_atPorts p (writeBits v s.cs.toNat s)

theorem outAppend_atPorts (b : Byte) (last : Bool) :
    outAppend b last (atPorts p s) = atPorts p (outAppend b last s) := by
  simp only [outAppend, atPorts, List.append_assoc]

theorem finalFrame_atPorts : finalFrame (atPorts p s) = atPorts p (finalFrame s) := by
  simp only [finalFrame, outAppend, atPorts, List.append_assoc]
  rfl

theorem pushFirst_atPorts (i : Byte) : pushFirst i (atPorts p s) = atPorts p (pushFirst i s) := by
  have hsize := outAppend_atPorts p s (s.mcs.setWidth 8) false
  have hwrite := writeCode_atPorts p (outAppend (s.mcs.setWidth 8) false s) s.c.toNat
  exact congrArg (fun u : State => { u with w := literalCode i, state := .scanning })
    ((congrArg (writeCode s.c.toNat) hsize).trans hwrite)

theorem mismatchHead_atPorts (i : Byte) : mismatchHead i (atPorts p s) = atPorts p (mismatchHead i s) := by
  have hwrite := writeCode_atPorts p { dictInsert s.w i (s.nc.setWidth 12) s with nc := s.nc + 1 } s.w.toNat
  exact congrArg (fun u : State => { u with w := literalCode i }) hwrite

theorem ceilingReset_atPorts : ceilingReset (atPorts p s) = atPorts p (ceilingReset s) := by
  have hwrite := writeCode_atPorts p s s.c.toNat
  exact congrArg (fun u : State => { dictReset s.c u with cs := u.mcs + 1 }) hwrite

theorem pushMismatch_atPorts (i : Byte) : pushMismatch i (atPorts p s) = atPorts p (pushMismatch i s) := by
  rcases pushMismatch_cases i s with ⟨hnc, h⟩ | ⟨hnc, hg, h⟩ | ⟨hnc, hg, h⟩
  · rw [h, pushMismatch_ceiling (s := atPorts p s) hnc, mismatchHead_atPorts, ceilingReset_atPorts]
  · rw [h, pushMismatch_grow (s := atPorts p s) hnc hg, mismatchHead_atPorts]
    rfl
  · rw [h, pushMismatch_plain (s := atPorts p s) hnc hg, mismatchHead_atPorts]

theorem pushNext_atPorts (i : Byte) : pushNext i (atPorts p s) = atPorts p (pushNext i s) := by
  have hfind : dictFind (atPorts p s).dict (some (atPorts p s).w) i = dictFind s.dict (some s.w) i := rfl
  rcases pushNext_cases i s with ⟨k, hk, h⟩ | ⟨hk, h⟩
  · rw [h, pushNext, hfind, hk]
    rfl
  · rw [h, pushNext, hfind, hk, ← pushMismatch_atPorts]

theorem closeCodes_atPorts : closeCodes (atPorts p s) = atPorts p (closeCodes s) := by
  have h1 := writeCode_atPorts p s s.w.toNat
  have h2 := writeCode_atPorts p (writeCode s.w.toNat s) (s.c.toNat + 1)
  exact (congrArg (writeCode (s.c.toNat + 1)) h1).trans h2

theorem closeJob_atPorts : closeJob (atPorts p s) = atPorts p (closeJob s) := by
  have hcodes := congrArg flush (closeCodes_atPorts p s)
  have hframe := finalFrame_atPorts p (flush (closeCodes s))
  exact congrArg (fun u : State => { u with state := .done }) ((congrArg finalFrame hcodes).trans hframe)

end

/-- A command does at other ports what it does at its own. -/
theorem exec_atPorts (p : State) {i : Instr} {s t : State} (h : exec i s = .next t) :
    exec i (atPorts p s) = .next (atPorts p t) := by
  cases i with
  | start cc =>
    rw [exec, execStart] at h
    rw [exec, execStart, atPorts_state]
    split_ifs at h ⊢ <;> cases h <;> rfl
  | push b =>
    rw [exec, execPush] at h
    rw [exec, execPush, atPorts_state, indexInRange_atPorts, pushFirst_atPorts, pushNext_atPorts]
    split_ifs at h ⊢ <;> cases h <;> rfl
  | endStream =>
    rw [exec, execEnd] at h
    rw [exec, execEnd, atPorts_state, closeJob_atPorts]
    split_ifs at h ⊢ <;> cases h <;> rfl

theorem execAll_cons {i : Instr} {s t : State} (h : exec i s = .next t) (is : List Instr) :
    execAll (i :: is) s = execAll is t := by
  rw [execAll, h]

/-- A list of commands completes. -/
theorem exists_execAll (is : List Instr) (s : State) : ∃ t, execAll is s = .next t := by
  induction is generalizing s with
  | nil => exact ⟨s, rfl⟩
  | cons i is ih =>
    obtain ⟨u, hu, -⟩ := exec_went i s
    rw [execAll_cons hu]
    exact ih u

/-- A list of commands does at other ports what it does at its own. -/
theorem execAll_atPorts (p : State) {is : List Instr} {s t : State} (h : execAll is s = .next t) :
    execAll is (atPorts p s) = .next (atPorts p t) := by
  induction is generalizing s with
  | nil =>
    cases h
    rfl
  | cons i is ih =>
    obtain ⟨u, hu, -⟩ := exec_went i s
    rw [execAll_cons hu] at h
    rw [execAll_cons (exec_atPorts p hu)]
    exact ih h

/-- The job START opens with nothing in the queue: of the state it meets it keeps `ERR` and the ports. -/
def freshJob (cn : Nat) (e : Err) : State := openJob cn { State.reset with err := e }

/-- START leaves the same registers whatever it finds (R163). -/
theorem openJob_eq_atPorts (cn : Nat) (s : State) : openJob cn s = atPorts s (freshJob cn s.err) := by
  simp only [atPorts, freshJob, openJob_outQueue, State.reset, List.append_nil]
  rfl

/-- Settles O13: both jobs are one job, the one opened with nothing in the queue, at two states' ports. -/
theorem jobDoesNotSeeEarlierJobs : Obligations.JobDoesNotSeeEarlierJobs := by
  unfold Obligations.JobDoesNotSeeEarlierJobs
  intro s1 s2 t1 cc is hs1 hs2 herr hc h
  obtain ⟨u, hu⟩ := exists_execAll is (freshJob (coerceColors cc) s1.err)
  have hrun {s : State} (hs : s.state = .idle ∨ s.state = .done) (he : s.err = s1.err) :
      execAll (.start cc :: is) s = .next (atPorts s u) := by
    rw [execAll_cons (execStart_open hs hc), openJob_eq_atPorts, he, execAll_atPorts s hu]
  rw [hrun hs1 rfl] at h
  cases h
  exact ⟨atPorts s2 u, u.outQueue, hrun hs2 herr.symm, rfl, rfl, rfl, rfl⟩

end Sys2Proof.Proofs

/-! START, the faults of the commands, and the host's STATUS read (43_driver.md R142, R143, R145, R156, R157, R159). -/

namespace Sys2Proof.Proofs

open Sys2Proof.Machine Sys2Proof.Safety Sys2Proof.Laws

theorem hostNext_readStatus {s : State} {rest : List HostAction} (h : s.host = .readStatus :: rest) :
    hostNext s = { s with host := rest, statusLog := s.statusLog ++ [s.statusWord] } := by
  rw [hostNext, h]
  rfl

/-- Settles O9: the step is the host's read, which writes down STATUS and nothing else. -/
theorem statusReadChangesNothing : Obligations.StatusReadChangesNothing := by
  unfold Obligations.StatusReadChangesNothing
  intro s rest hnone hhost
  rw [step_host hnone, hostNext_readStatus hhost]

/-- A color count in range fits `C`, so the literals and `NC` are those of the count itself (R142). -/
theorem openJob_eq {cn : Nat} (h : cn ≤ 256) (s : State) :
    openJob cn s =
      { s with
        c := BitVec.ofNat 9 cn
        mcs := BitVec.ofNat 4 (minCodeSize cn)
        cs := BitVec.ofNat 4 (minCodeSize cn + 1)
        dict := literals cn
        nc := BitVec.ofNat 13 (cn + 2)
        w := 0, acc := 0, nb := 0, buf := [], state := .armed } := by
  simp only [openJob, dictReset, clearPacker, ofNat_colors_toNat h]

/-- Settles O10: START in range is `openJob` of the coerced count. -/
theorem startOpensJob : Obligations.StartOpensJob := by
  unfold Obligations.StartOpensJob
  intro s cc hs hc
  exact (execStart_open hs hc).trans (congrArg Host.Outcome.next (openJob_eq hc s))

/-- Settles O11, case by case of STATE. -/
theorem startRaisesOrIsIgnored : Obligations.StartRaisesOrIsIgnored := by
  unfold Obligations.StartRaisesOrIsIgnored
  exact fun s cc => ⟨execStart_sequence, execStart_range, execStart_fault⟩

/-- Settles O18, case by case of STATE. -/
theorem pushRaisesOrIsIgnored : Obligations.PushRaisesOrIsIgnored := by
  unfold Obligations.PushRaisesOrIsIgnored
  exact fun s i => ⟨execPush_index, execPush_sequence, execPush_fault⟩

/-- Settles O21, case by case of STATE. -/
theorem endRaisesOrIsIgnored : Obligations.EndRaisesOrIsIgnored := by
  unfold Obligations.EndRaisesOrIsIgnored
  exact fun s => ⟨execEnd_empty, execEnd_sequence, execEnd_fault⟩

/-- A row of R143's table: `MCS` between two powers of 2. -/
theorem mcs_of_range {s : State} (h : JobOk s) {m : Nat} (hm : m < 15) (hlow : 2 ^ m < s.c.toNat)
    (hhigh : s.c.toNat ≤ 2 ^ (m + 1)) : s.mcs = BitVec.ofNat 4 (m + 1) := by
  apply BitVec.eq_of_toNat_eq
  rw [h.mcs_eq, minCodeSize, bitlen_eq (m := m) (by omega) (by omega), BitVec.toNat_ofNat, Nat.mod_eq_of_lt (by omega)]

theorem openJob_c_toNat {cn : Nat} (h : cn ≤ 256) (s : State) : (openJob cn s).c.toNat = cn := by
  rw [openJob_c, ofNat_colors_toNat h]

theorem four_le_coerceColors (cc : BitVec 16) : 4 ≤ coerceColors cc := Nat.le_max_right _ _

/-- Settles O12: START leaves the registers of a job, and `bitlen` is the least width. -/
theorem minCodeSizeIsLeastWidth : Obligations.MinCodeSizeIsLeastWidth := by
  unfold Obligations.MinCodeSizeIsLeastWidth
  intro s t cc hs hc hexec
  have hopen := (execStart_open hs hc).symm.trans hexec
  cases hopen
  have hjob : JobOk (openJob (coerceColors cc) s) := jobOk_openJob s ⟨four_le_coerceColors cc, hc⟩
  have hmcs : (openJob (coerceColors cc) s).mcs.toNat = bitlen ((openJob (coerceColors cc) s).c.toNat - 1) := hjob.mcs_eq
  refine ⟨openJob_c_toNat hc s, hmcs, ?_, fun m hm => ?_, fun h => ?_, fun h h' => ?_, fun h h' => ?_, fun h h' => ?_,
    fun h h' => ?_, fun h h' => ?_, fun h h' => ?_⟩
  · rw [hmcs]
    exact bitlen_lt _
  · rw [hmcs]
    exact bitlen_le hm
  · exact mcs_of_range hjob (m := 1) (by omega) (by omega) (by omega)
  · exact mcs_of_range hjob (m := 2) (by omega) (by omega) (by omega)
  · exact mcs_of_range hjob (m := 3) (by omega) (by omega) (by omega)
  · exact mcs_of_range hjob (m := 4) (by omega) (by omega) (by omega)
  · exact mcs_of_range hjob (m := 5) (by omega) (by omega) (by omega)
  · exact mcs_of_range hjob (m := 6) (by omega) (by omega) (by omega)
  · exact mcs_of_range hjob (m := 7) (by omega) (by omega) (by omega)

end Sys2Proof.Proofs

/-! PUSH in ARMED and SCANNING (43_driver.md R146 to R153). -/

namespace Sys2Proof.Proofs

open Sys2Proof.Machine Sys2Proof.Safety Sys2Proof.Reference Sys2Proof.Laws

/-! The first PUSH of a job (R146). -/

theorem literalCode_toNat (i : Byte) : (literalCode i).toNat = i.toNat :=
  BitVec.toNat_setWidth_of_le (by omega)

theorem pendingBits_of_packerEmpty {s : State} (h : PackerEmpty s) : pendingBits s = [] := by
  obtain ⟨-, hnb, hbuf⟩ := h
  rw [pendingBits_eq, hbuf, hnb]
  rfl

theorem acc_lt_of_packerEmpty {s : State} (h : PackerEmpty s) : s.acc.toNat < 2 ^ s.nb.toNat := by
  obtain ⟨hacc, hnb, -⟩ := h
  rw [hacc, hnb]
  decide

/-- In ARMED the width is the first of the job, which fits Clear and EOI (R29, R30). -/
theorem cs_of_armed {s : State} (h : Inv s) (hs : s.state = .armed) : s.cs.toNat = s.mcs.toNat + 1 := by
  have hjob := h.job (.inl hs)
  obtain ⟨-, hnc, -⟩ := h.armed hs
  rw [hjob.cs_eq, hnc, hjob.mcs_eq]
  exact (width_fresh hjob.c_range.1).symm

/-- One code in an empty packer is pending as it is: it is too short for a sub-block. -/
theorem writeCode_packerEmpty (v : Nat) {s : State} (h : PackerEmpty s) :
    (writeCode v s).outQueue = s.outQueue ∧ pendingBits (writeCode v s) = codeBits v s.cs.toNat := by
  obtain ⟨blocks, -, hq, -, hlen, -, -, hbits⟩ := writeCode_spec v s (acc_lt_of_packerEmpty h)
  obtain ⟨-, hnb, hbuf⟩ := id h
  have hcs := s.cs.isLt
  have hzero : s.nb.toNat = 0 := by rw [hnb]; rfl
  rw [hbuf, List.length_nil] at hlen
  have hnone : blocks = [] := List.eq_nil_of_length_eq_zero (by omega)
  subst hnone
  rw [pendingBits_of_packerEmpty h] at hbits
  exact ⟨by simpa using hq, by simpa using hbits⟩

/-- Settles O14: the size byte goes straight to the queue, Clear into the empty packer. -/
theorem firstPushEmitsSizeAndClear : Obligations.FirstPushEmitsSizeAndClear := by
  unfold Obligations.FirstPushEmitsSizeAndClear
  intro s i h hs hi
  obtain ⟨-, -, hempty⟩ := h.armed hs
  obtain ⟨hq, hbits⟩ := writeCode_packerEmpty s.c.toNat (s := outAppend (s.mcs.setWidth 8) false s) hempty
  refine ⟨pushFirst i s, execPush_first hs hi, ?_, ?_, (pushFirst_packed i h.acc_lt).acc_lt, literalCode_toNat i, rfl,
    rfl⟩
  · rw [BitVec.ofNat_toNat]
    exact hq
  · rw [← cs_of_armed h hs]
    exact hbits

/-! A later PUSH: which way it goes (R147). -/

theorem execPush_match {s : State} {i : Byte} {p : List Byte} {k : Code} (hs : s.state = .scanning)
    (hi : i.toNat < s.c.toNat) (hp : dictLookup s.dict p = some s.w) (hk : dictLookup s.dict (p ++ [i]) = some k) :
    exec (.push i) s = .next { s with w := k } := by
  have hkey := (tableKeyAgreesWithSequence s.dict p s.w i hp).symm.trans hk
  rw [execPush_next hs hi, pushNext, hkey]

theorem execPush_mismatch {s : State} {i : Byte} {p : List Byte} (hs : s.state = .scanning)
    (hi : i.toNat < s.c.toNat) (hp : dictLookup s.dict p = some s.w) (hnew : dictLookup s.dict (p ++ [i]) = none) :
    exec (.push i) s = .next (pushMismatch i s) := by
  have hkey := (tableKeyAgreesWithSequence s.dict p s.w i hp).symm.trans hnew
  rw [execPush_next hs hi, pushNext, hkey]

/-- Settles O15: the table form finds `P ++ [i]` where the map of sequences does. -/
theorem matchingPushOnlyMovesW : Obligations.MatchingPushOnlyMovesW := by
  unfold Obligations.MatchingPushOnlyMovesW
  exact fun s i p k => execPush_match

/-! A mismatch: the registers (R149, R150, R152, R153). -/

section

variable (i : Byte) {s : State}

theorem pushMismatch_ceiling_registers (hnc : s.nc.toNat = 4095) :
    (pushMismatch i s).dict = literals s.c.toNat ∧ (pushMismatch i s).nc.toNat = s.c.toNat + 2 ∧
      (pushMismatch i s).cs = s.mcs + 1 := by
  have hc := s.c.isLt
  have hnc' : (BitVec.ofNat 13 (s.c.toNat + 2)).toNat = s.c.toNat + 2 := by
    rw [BitVec.toNat_ofNat]
    omega
  rw [pushMismatch_ceiling hnc]
  exact ⟨ceilingReset_dict _, hnc', ceilingReset_cs _⟩

theorem pushMismatch_below_registers (hle : s.nc.toNat ≤ 4095) (hnc : s.nc.toNat ≠ 4095) :
    (pushMismatch i s).dict = (dictInsert s.w i (s.nc.setWidth 12) s).dict ∧
      (pushMismatch i s).nc.toNat = s.nc.toNat + 1 ∧
      (pushMismatch i s).cs = if s.nc.toNat = 2 ^ s.cs.toNat then s.cs + 1 else s.cs := by
  have hup : (s.nc + 1).toNat = s.nc.toNat + 1 := BitVec.toNat_add_of_lt (by simp; omega)
  rcases pushMismatch_cases i s with ⟨hceil, _⟩ | ⟨_, hg, hm⟩ | ⟨_, hg, hm⟩
  · exact absurd hceil hnc
  · rw [hm, if_pos hg]
    exact ⟨rfl, hup, rfl⟩
  · rw [hm, if_neg hg]
    exact ⟨rfl, hup, rfl⟩

end

/-- What a mismatch writes (R149 to R153); it keeps everything else. -/
theorem pushMismatch_frame (i : Byte) (s : State) :
    pushMismatch i s = { s with
      w := (pushMismatch i s).w, dict := (pushMismatch i s).dict, nc := (pushMismatch i s).nc
      cs := (pushMismatch i s).cs, acc := (pushMismatch i s).acc, nb := (pushMismatch i s).nb
      buf := (pushMismatch i s).buf, outQueue := (pushMismatch i s).outQueue } := by
  have hstate := pushMismatch_state i s
  have herr := pushMismatch_err i s
  have hc := pushMismatch_c i s
  have hmcs := pushMismatch_mcs i s
  have htaken := pushMismatch_taken i s
  have hcmds := pushMismatch_cmds i s
  have hhost := pushMismatch_host i s
  have hlog := pushMismatch_statusLog i s
  generalize pushMismatch i s = t at *
  rw [← hstate, ← herr, ← hc, ← hmcs, ← htaken, ← hcmds, ← hhost, ← hlog]

/-- Settles O16: the PUSH is a mismatch, at the ceiling or below it. -/
theorem mismatchingPushRegisters : Obligations.MismatchingPushRegisters := by
  unfold Obligations.MismatchingPushRegisters
  intro s i p hs hi hp hnew hle
  have hw : (pushMismatch i s).w.toNat = i.toNat := by rw [pushMismatch_w, literalCode_toNat]
  refine ⟨_, execPush_mismatch hs hi hp hnew, hw, pushMismatch_ceiling_registers i, fun hnc => ?_,
    pushMismatch_frame i s⟩
  rw [BitVec.ofNat_toNat]
  exact pushMismatch_below_registers i hle hnc

/-! A mismatch: the codes written (R151, R152). -/

/-- From `s` to `t` these bits join the stream, and these full sub-blocks leave the packer for the queue (R103, R180). -/
structure Wrote (bits : List Bool) (blocks : List (List Byte)) (s t : State) : Prop where
  sends : SendsBlocks blocks s t
  acc_lt : t.acc.toNat < 2 ^ t.nb.toNat
  stream : byteBits blocks.flatten ++ pendingBits t = pendingBits s ++ bits

theorem Wrote.trans {bits more : List Bool} {a b : List (List Byte)} {s t u : State} (h1 : Wrote bits a s t)
    (h2 : Wrote more b t u) : Wrote (bits ++ more) (a ++ b) s u where
  sends := h1.sends.trans h2.sends
  acc_lt := h2.acc_lt
  stream := by
    rw [List.flatten_append, byteBits_append, List.append_assoc, h2.stream, ← List.append_assoc, h1.stream,
      List.append_assoc]

/-- The registers but those of the packer do not count. -/
theorem Wrote.congr {bits : List Bool} {blocks : List (List Byte)} {s t u : State} (h : Wrote bits blocks s t)
    (hacc : u.acc = t.acc) (hnb : u.nb = t.nb) (hbuf : u.buf = t.buf) (hq : u.outQueue = t.outQueue) :
    Wrote bits blocks s u where
  sends := ⟨h.sends.full, hq.trans h.sends.queue⟩
  acc_lt := by rw [hacc, hnb]; exact h.acc_lt
  stream := by rw [pendingBits, hacc, hnb, hbuf]; exact h.stream

theorem writeCode_wrote (v : Nat) {s : State} (hacc : s.acc.toNat < 2 ^ s.nb.toNat) :
    ∃ blocks, Wrote (codeBits v s.cs.toNat) blocks s (writeCode v s) := by
  obtain ⟨blocks, hfull, hq, -, -, -, hlt, hstream⟩ := writeCode_spec v s hacc
  exact ⟨blocks, ⟨hfull, hq⟩, hlt, hstream⟩

theorem mismatchHead_wrote (i : Byte) {s : State} (hacc : s.acc.toNat < 2 ^ s.nb.toNat) :
    ∃ blocks, Wrote (codeBits s.w.toNat s.cs.toNat) blocks s (mismatchHead i s) := by
  obtain ⟨blocks, h⟩ := writeCode_wrote s.w.toNat hacc
  exact ⟨blocks, h.congr rfl rfl rfl rfl⟩

theorem ceilingReset_wrote {s : State} (hacc : s.acc.toNat < 2 ^ s.nb.toNat) :
    ∃ blocks, Wrote (codeBits s.c.toNat s.cs.toNat) blocks s (ceilingReset s) := by
  obtain ⟨blocks, h⟩ := writeCode_wrote s.c.toNat hacc
  exact ⟨blocks, h.congr rfl rfl rfl rfl⟩

/-- The bits a mismatch writes: the code of `P`, and Clear at the ceiling, both at the width it starts with. -/
def mismatchBits (s : State) : List Bool :=
  codeBits s.w.toNat s.cs.toNat ++ if s.nc.toNat = 4095 then codeBits s.c.toNat s.cs.toNat else []

theorem pushMismatch_wrote (i : Byte) {s : State} (hacc : s.acc.toNat < 2 ^ s.nb.toNat) :
    ∃ blocks, Wrote (mismatchBits s) blocks s (pushMismatch i s) := by
  obtain ⟨blocks, hhead⟩ := mismatchHead_wrote i hacc
  unfold mismatchBits
  rcases pushMismatch_cases i s with ⟨hnc, hm⟩ | ⟨hnc, _, hm⟩ | ⟨hnc, _, hm⟩
  · obtain ⟨more, hreset⟩ := ceilingReset_wrote hhead.acc_lt
    rw [hm, if_pos hnc]
    exact ⟨_, hhead.trans hreset⟩
  · rw [hm, if_neg hnc, List.append_nil]
    exact ⟨blocks, hhead.congr rfl rfl rfl rfl⟩
  · rw [hm, if_neg hnc, List.append_nil]
    exact ⟨blocks, hhead⟩

/-- Settles O17: what the writes of a mismatch send and leave in the packer. -/
theorem mismatchingPushWritesCodes : Obligations.MismatchingPushWritesCodes := by
  unfold Obligations.MismatchingPushWritesCodes
  intro s i p hacc hs hi hp hnew
  obtain ⟨blocks, ⟨hfull, hqueue⟩, -, hstream⟩ := pushMismatch_wrote i hacc
  have hbuf := (pushMismatch_packed i hacc).buf_le
  refine ⟨_, blocks, execPush_mismatch hs hi hp hnew, hfull, hqueue, by omega, ?_⟩
  rw [List.append_assoc]
  exact hstream

end Sys2Proof.Proofs

/-! END in SCANNING (43_driver.md R155). -/

namespace Sys2Proof.Proofs

open Sys2Proof.Machine Sys2Proof.Safety Sys2Proof.Reference Sys2Proof.Laws

/-- The words that finish a job whose stream goes on with these bits: they are packed and framed, then the terminator
(R78, R104, R182). -/
def finishWords (bits : List Bool) : List OutWord :=
  plainWords (frame (packBits bits)) ++ [{ byte := 0x00#8, last := true }]

/-- Full sub-blocks that are already sent are the first words that finish the job. -/
theorem Wrote.finish {bits : List Bool} {blocks : List (List Byte)} {s t : State} (h : Wrote bits blocks s t)
    (rest : List Bool) :
    t.outQueue ++ finishWords (pendingBits t ++ rest) = s.outQueue ++ finishWords (pendingBits s ++ (bits ++ rest)) := by
  rw [← List.append_assoc (pendingBits s), ← h.stream, List.append_assoc (byteBits _), finishWords,
    finishWords, packBits_bytes, frame_blocks h.sends.full, h.sends.queue]
  simp only [List.append_assoc]

theorem closeCodes_wrote {s : State} (hacc : s.acc.toNat < 2 ^ s.nb.toNat) :
    ∃ blocks, Wrote (codeBits s.w.toNat s.cs.toNat ++ codeBits (s.c.toNat + 1) s.cs.toNat) blocks s (closeCodes s) := by
  obtain ⟨blocks, h1⟩ := writeCode_wrote s.w.toNat hacc
  obtain ⟨more, h2⟩ := writeCode_wrote (s.c.toNat + 1) h1.acc_lt
  exact ⟨_, h1.trans h2⟩

/-- Flush and FinalFrame send all that is pending, packed and framed (R101, R181). -/
theorem closeJob_outQueue_pending {s : State} (hacc : (closeCodes s).acc.toNat < 2 ^ (closeCodes s).nb.toNat) :
    (closeJob s).outQueue = (closeCodes s).outQueue ++ finishWords (pendingBits (closeCodes s)) := by
  have hflush : (flush (closeCodes s)).buf = packBits (pendingBits (closeCodes s)) := by
    rw [flush_buf_packBits hacc, pendingBits_eq, packBits_bytes]
  rw [closeJob_outQueue, ← plainWords_frame_last (flush_closeCodes_length s), hflush, List.append_assoc]
  rfl

theorem closeJob_outQueue_stream {s : State} (hacc : s.acc.toNat < 2 ^ s.nb.toNat) :
    (closeJob s).outQueue = s.outQueue ++ finishWords (pendingBits s ++
      (codeBits s.w.toNat s.cs.toNat ++ codeBits (s.c.toNat + 1) s.cs.toNat)) := by
  obtain ⟨blocks, hcodes⟩ := closeCodes_wrote hacc
  rw [closeJob_outQueue_pending hcodes.acc_lt]
  simpa using hcodes.finish []

/-- What END writes (R155); it keeps everything else: field by field. -/
theorem closeJob_frame (s : State) :
    closeJob s = { s with acc := 0, nb := 0, buf := [], state := .done, outQueue := (closeJob s).outQueue } := by
  rw [← closeJob_acc s, ← closeJob_nb s, ← closeJob_buf s, ← closeJob_state s, ← closeJob_err s, ← closeJob_c s,
    ← closeJob_mcs s, ← closeJob_cs s, ← closeJob_nc s, ← closeJob_w s, ← closeJob_dict s, ← closeJob_taken s,
    ← closeJob_cmds s, ← closeJob_host s, ← closeJob_statusLog s]

/-- Settles O20: END's two codes join the stream, and all of it is packed and framed. -/
theorem endWritesLastCodesAndTerminator : Obligations.EndWritesLastCodesAndTerminator := by
  unfold Obligations.EndWritesLastCodesAndTerminator
  intro s hacc hs
  rw [execEnd_close hs, closeJob_frame, closeJob_outQueue_stream hacc, finishWords]
  simp only [List.append_assoc]

end Sys2Proof.Proofs

/-! What every command does to STATE and ERR, and what it keeps (43_driver.md R154, R158). -/

namespace Sys2Proof.Proofs

open Sys2Proof.Machine Sys2Proof.Safety Sys2Proof.Laws

/-- Settles O44, by the way the command goes. -/
theorem commandFrames : Obligations.CommandFrames := by
  unfold Obligations.CommandFrames
  intro i s t hexec hnofault
  cases went_of_exec hexec with
  | ignored _ hs => exact absurd hs hnofault
  | raised => exact absurd rfl hnofault
  | opened cc => simp
  | first b => simp
  | next b hs => simp [hs]
  | closed => simp

/-- A code of the dictionary fits the width (R26, R29). -/
theorem dictCode_lt_width {s : State} (h : JobOk s) {k : Code} (hk : k ∈ dictCodes s.dict) :
    k.toNat < 2 ^ s.cs.toNat := by
  have hbound := dictOk_code_bounds h.dict_ok hk
  have hnc := h.nc_range.1
  calc k.toNat ≤ s.nc.toNat - 1 := by omega
    _ < 2 ^ bitlen (s.nc.toNat - 1) := bitlen_lt _
    _ ≤ 2 ^ s.cs.toNat := Nat.pow_le_pow_right (by omega) (h.cs_eq ▸ Nat.le_max_right _ _)

/-- EOI, and with it Clear, fits the width (R29, R143). -/
theorem eoi_lt_width {s : State} (h : JobOk s) : s.c.toNat + 1 < 2 ^ s.cs.toNat := by
  have hcolors := h.c_range.1
  have hclear : s.c.toNat - 1 < 2 ^ s.mcs.toNat := h.mcs_eq ▸ bitlen_lt _
  calc s.c.toNat + 1 < 2 ^ (s.mcs.toNat + 1) := by rw [Nat.pow_succ]; omega
    _ ≤ 2 ^ s.cs.toNat := Nat.pow_le_pow_right (by omega) (h.cs_eq ▸ Nat.le_max_left _ _)

theorem cs_range {s : State} (h : JobOk s) : 3 ≤ s.cs.toNat ∧ s.cs.toNat ≤ 12 := by
  have hge := minCodeSize_ge h.c_range.1
  have hle := minCodeSize_le h.c_range.2
  have hnc : s.nc.toNat ≤ 4095 := h.nc_range.2
  have hlen : bitlen (s.nc.toNat - 1) ≤ 12 := bitlen_le (by omega)
  rw [h.cs_eq, h.mcs_eq]
  omega

/-- Settles O47: the width of R29 fits every code in use. -/
theorem codesFitTheirWidth : Obligations.CodesFitTheirWidth := by
  unfold Obligations.CodesFitTheirWidth
  intro s h hin
  have hjob := h.job hin
  exact ⟨Nat.lt_of_succ_lt (eoi_lt_width hjob), eoi_lt_width hjob, fun hs => dictCode_lt_width hjob (h.scanning hs),
    cs_range hjob⟩

/-- `t` has the STATE and the ERR that the table gives for this word in `s` (R158). -/
def AsTable (word : Decoded) (s t : State) : Prop :=
  t.state = (transition word s).1 ∧ t.err = ((transition word s).2).getD s.err

theorem asTable_start (cc : BitVec 16) (s : State) :
    ∃ t, exec (.start cc) s = .next t ∧ AsTable (.instr (.start cc)) s t := by
  cases hs : s.state with
  | idle =>
    by_cases hc : max cc.toNat 4 ≤ 256
    · exact ⟨_, execStart_open (.inl hs) hc, by simp [AsTable, transition, hs, hc]⟩
    · exact ⟨_, execStart_range (.inl hs) (Nat.lt_of_not_le hc), by simp [AsTable, transition, hs, hc]⟩
  | done =>
    by_cases hc : max cc.toNat 4 ≤ 256
    · exact ⟨_, execStart_open (.inr hs) hc, by simp [AsTable, transition, hs, hc]⟩
    · exact ⟨_, execStart_range (.inr hs) (Nat.lt_of_not_le hc), by simp [AsTable, transition, hs, hc]⟩
  | armed => exact ⟨_, execStart_sequence (.inl hs), by simp [AsTable, transition, hs]⟩
  | scanning => exact ⟨_, execStart_sequence (.inr hs), by simp [AsTable, transition, hs]⟩
  | fault => exact ⟨_, execStart_fault hs, by simp [AsTable, transition, hs]⟩

theorem asTable_push (i : Byte) (s : State) : ∃ t, exec (.push i) s = .next t ∧ AsTable (.instr (.push i)) s t := by
  cases hs : s.state with
  | idle => exact ⟨_, execPush_sequence (.inl hs), by simp [AsTable, transition, hs]⟩
  | done => exact ⟨_, execPush_sequence (.inr hs), by simp [AsTable, transition, hs]⟩
  | armed =>
    by_cases hi : i.toNat < s.c.toNat
    · exact ⟨_, execPush_first hs hi, by simp [AsTable, transition, hs, hi]⟩
    · exact ⟨_, execPush_index (.inl hs) (Nat.le_of_not_lt hi), by simp [AsTable, transition, hs, hi]⟩
  | scanning =>
    by_cases hi : i.toNat < s.c.toNat
    · exact ⟨_, execPush_next hs hi, by simp [AsTable, transition, hs, hi]⟩
    · exact ⟨_, execPush_index (.inr hs) (Nat.le_of_not_lt hi), by simp [AsTable, transition, hs, hi]⟩
  | fault => exact ⟨_, execPush_fault hs, by simp [AsTable, transition, hs]⟩

theorem asTable_end (s : State) : ∃ t, exec .endStream s = .next t ∧ AsTable (.instr .endStream) s t := by
  cases hs : s.state with
  | idle => exact ⟨_, execEnd_sequence (.inl hs), by simp [AsTable, transition, hs]⟩
  | done => exact ⟨_, execEnd_sequence (.inr hs), by simp [AsTable, transition, hs]⟩
  | armed => exact ⟨_, execEnd_empty hs, by simp [AsTable, transition, hs]⟩
  | scanning => exact ⟨_, execEnd_close hs, by simp [AsTable, transition, hs]⟩
  | fault => exact ⟨_, execEnd_fault hs, by simp [AsTable, transition, hs]⟩

theorem asTable_illegal (why : IllegalWord) (s : State) :
    AsTable (.illegal why) s (if s.state = .fault then s else raiseFault .illegal s) := by
  cases hs : s.state <;> simp [AsTable, transition, hs]

/-- Settles O23: each command in each STATE, and an illegal word. -/
theorem stateTransitionTable : Obligations.StateTransitionTable := by
  unfold Obligations.StateTransitionTable
  intro word s
  cases hd : decode word with
  | illegal why => exact ⟨_, runWord_of_no_instr (by simp [hd]) s, asTable_illegal why s⟩
  | instr i =>
    rw [runWord_instr hd]
    cases i with
    | start cc => exact asTable_start cc s
    | push b => exact asTable_push b s
    | endStream => exact asTable_end s

end Sys2Proof.Proofs

/-! A job against the reference encoder (43_driver.md R160). -/

namespace Sys2Proof.Proofs

open Sys2Proof.Machine Sys2Proof.Safety Sys2Proof.Reference Sys2Proof.Laws

/-! The dictionary and a map of whole sequences. -/

/-- The dictionary finds what the map finds. -/
def SameMap (dict : List DictEntry) (d : SeqMap) : Prop := ∀ q, (dictLookup dict q).map BitVec.toNat = codeOf d q

theorem codeOf_cons (d : SeqMap) (key : List Byte) (k : Nat) (q : List Byte) :
    codeOf ((key, k) :: d) q = if q = key then some k else codeOf d q := by
  rw [codeOf, List.lookup_cons]
  by_cases h : q = key
  · simp [h]
  · simp [h, beq_eq_false_iff_ne.mpr h, codeOf]

theorem codeOf_literalMap_succ (n : Nat) (q : List Byte) :
    codeOf (literalMap (n + 1)) q =
      (codeOf (literalMap n) q).or (if q = [BitVec.ofNat 8 n] then some n else none) := by
  have hlast := codeOf_cons [] [BitVec.ofNat 8 n] n q
  rw [show codeOf [] q = none from rfl] at hlast
  rw [← hlast, codeOf, literalMap, List.range_succ, List.map_append, List.lookup_append]
  rfl

theorem codeOf_literalMap_single {c : Nat} (hc : c ≤ 256) (j : Byte) :
    codeOf (literalMap c) [j] = if j.toNat < c then some j.toNat else none := by
  induction c with
  | zero => rfl
  | succ n ih =>
    have hlast : [j] = [BitVec.ofNat 8 n] ↔ j.toNat = n := by
      rw [List.singleton_inj, ← BitVec.toNat_inj, BitVec.toNat_ofNat, Nat.mod_eq_of_lt (by omega)]
    rw [codeOf_literalMap_succ, ih (by omega)]
    simp only [hlast]
    rcases Nat.lt_trichotomy j.toNat n with hlt | heq | hgt
    · rw [if_pos hlt, if_pos (Nat.lt_succ_of_lt hlt), Option.some_or]
    · simp [heq]
    · rw [if_neg (by omega), if_neg (by omega), if_neg (by omega), Option.none_or]

/-- No literal is a sequence of another length than 1. -/
theorem codeOf_literalMap_other (c : Nat) {q : List Byte} (hq : ∀ j, q ≠ [j]) : codeOf (literalMap c) q = none := by
  induction c with
  | zero => rfl
  | succ n ih => rw [codeOf_literalMap_succ, ih, if_neg (hq _), Option.none_or]

/-- The reference's literals are those of DictReset (R120). -/
theorem sameMap_literals {c : Nat} (hc : c ≤ 256) : SameMap (literals c) (literalMap c) := by
  rintro (_ | ⟨j, _ | ⟨k, rest⟩⟩)
  · rw [codeOf_literalMap_other c (by simp)]
    rfl
  · rw [codeOf_literalMap_single hc, dictLookup_literals_single hc]
    split
    · rw [Option.map_some, BitVec.toNat_ofNat, Nat.mod_eq_of_lt (by omega)]
    · rfl
  · rw [codeOf_literalMap_other c (by simp), dictLookup_literals_long]
    rfl

/-! The state and the reference in mid-job. -/

/-- `s` is in SCANNING with the map `d` as its dictionary and the sequence `p` pending. -/
structure Scans (d : SeqMap) (p : List Byte) (s : State) : Prop where
  scanning : s.state = .scanning
  job : JobOk s
  map : SameMap s.dict d
  pending : dictLookup s.dict p = some s.w
  acc_lt : s.acc.toNat < 2 ^ s.nb.toNat

/-- The bits the reference writes from here to the end of the job. -/
def restBits (d : SeqMap) (p : List Byte) (s : State) (xs : List Byte) : List Bool :=
  bitStream (codesFrom s.c.toNat d s.nc.toNat s.cs.toNat p xs)

/-- From `s` to `t` the block goes on with a job as the reference does at the index `i`: what it writes is what the
reference writes first. -/
structure GoesOn (d : SeqMap) (p : List Byte) (i : Byte) (s : State) (d' : SeqMap) (p' : List Byte) (t : State) :
    Prop where
  scans : Scans d' p' t
  c_eq : t.c = s.c
  taken_eq : t.taken = s.taken
  err_eq : t.err = s.err
  writes : ∃ bits blocks, Wrote bits blocks s t ∧ ∀ xs, restBits d p s (i :: xs) = bits ++ restBits d' p' t xs

section

variable {d : SeqMap} {p : List Byte} {s : State} (h : Scans d p s) {i : Byte}

include h

theorem Scans.codeOf_pending : codeOf d p = some s.w.toNat := by
  rw [← h.map, h.pending, Option.map_some]

theorem Scans.w_mem : s.w ∈ dictCodes s.dict := dictLookup_mem h.pending

theorem goesOn_match {k : Code} (hk : dictLookup s.dict (p ++ [i]) = some k) :
    GoesOn d p i s d (p ++ [i]) { s with w := k } where
  scans := ⟨h.scanning, jobOk_congr h.job rfl rfl rfl rfl rfl, h.map, hk, h.acc_lt⟩
  c_eq := rfl
  taken_eq := rfl
  err_eq := rfl
  writes := by
    have hcode : codeOf d (p ++ [i]) = some k.toNat := by rw [← h.map, hk, Option.map_some]
    refine ⟨[], [], ⟨⟨by simp, by simp⟩, h.acc_lt, by simp [pendingBits_eq]⟩, fun xs => ?_⟩
    rw [restBits, codesFrom, hcode]
    rfl

section

variable (hi : i.toNat < s.c.toNat) (hnew : dictLookup s.dict (p ++ [i]) = none)

include hi hnew

theorem scans_pushMismatch {d' : SeqMap} (hmap : SameMap (pushMismatch i s).dict d') :
    Scans d' [i] (pushMismatch i s) := by
  have hkey := (tableKeyAgreesWithSequence s.dict p s.w i h.pending).symm.trans hnew
  have hjob := jobOk_pushMismatch h.job h.w_mem hkey
  have hpending := dictLookup_byte hjob.dict_ok (j := i) (by rwa [pushMismatch_c])
  refine ⟨by rw [pushMismatch_state, h.scanning], hjob, hmap, ?_, (pushMismatch_packed i h.acc_lt).acc_lt⟩
  rw [hpending, pushMismatch_w, BitVec.ofNat_toNat]
  rfl

theorem goesOn_mismatch {d' : SeqMap} (hmap : SameMap (pushMismatch i s).dict d')
    (hbits : ∀ xs, restBits d p s (i :: xs) = mismatchBits s ++ restBits d' [i] (pushMismatch i s) xs) :
    GoesOn d p i s d' [i] (pushMismatch i s) where
  scans := scans_pushMismatch h hi hnew hmap
  c_eq := pushMismatch_c i s
  taken_eq := pushMismatch_taken i s
  err_eq := pushMismatch_err i s
  writes := by
    obtain ⟨blocks, hwrote⟩ := pushMismatch_wrote i h.acc_lt
    exact ⟨_, blocks, hwrote, hbits⟩

/-- At the ceiling both start over with the literals (R152). -/
theorem goesOn_ceiling (hnc : s.nc.toNat = 4095) :
    GoesOn d p i s (literalMap s.c.toNat) [i] (pushMismatch i s) := by
  obtain ⟨hdict, hnext, hcs⟩ := pushMismatch_ceiling_registers i hnc
  have hmcs := minCodeSize_le h.job.c_range.2
  have hwidth : (s.mcs + 1).toNat = minCodeSize s.c.toNat + 1 := by
    rw [BitVec.toNat_add_of_lt (by rw [h.job.mcs_eq]; simp; omega), h.job.mcs_eq]
    rfl
  refine goesOn_mismatch h hi hnew (hdict ▸ sameMap_literals h.job.c_range.2) fun xs => ?_
  have hcode : codeOf d (p ++ [i]) = none := by rw [← h.map, hnew, Option.map_none]
  rw [restBits, restBits, mismatchBits, codesFrom, hcode, h.codeOf_pending, hnext, hcs, hwidth, pushMismatch_c, hnc]
  simp [bitStream]

/-- Below it both enter the sequence under the next unused code (R150, R153). -/
theorem goesOn_below (hnc : s.nc.toNat ≠ 4095) :
    GoesOn d p i s ((p ++ [i], s.nc.toNat) :: d) [i] (pushMismatch i s) := by
  have hle : s.nc.toNat ≤ 4095 := h.job.nc_range.2
  obtain ⟨hdict, hnext, hcs⟩ := pushMismatch_below_registers i hle hnc
  have hmap : SameMap (pushMismatch i s).dict ((p ++ [i], s.nc.toNat) :: d) := by
    intro q
    rw [hdict, dictLookup_insert_nextCode h.job h.pending hnew, codeOf_cons, ← h.map]
    split
    · rw [Option.map_some, nextCode_toNat h.job]
    · rfl
  have hwidth : (pushMismatch i s).cs.toNat = if s.nc.toNat = 2 ^ s.cs.toNat then s.cs.toNat + 1 else s.cs.toNat := by
    rw [hcs]
    split
    next hgrow =>
      have hrange := (cs_range h.job).2
      exact BitVec.toNat_add_of_lt (by simp; omega)
    next => rfl
  refine goesOn_mismatch h hi hnew hmap fun xs => ?_
  have hcode : codeOf d (p ++ [i]) = none := by rw [← h.map, hnew, Option.map_none]
  rw [restBits, restBits, mismatchBits, codesFrom, hcode, h.codeOf_pending, hnext, hwidth, pushMismatch_c]
  simp [bitStream, hnc]

end

/-- A PUSH in range goes on as the reference does (R147). -/
theorem exec_push_goesOn (hi : i.toNat < s.c.toNat) :
    ∃ d' p' t, exec (.push i) s = .next t ∧ GoesOn d p i s d' p' t := by
  cases hk : dictLookup s.dict (p ++ [i]) with
  | some k => exact ⟨_, _, _, execPush_match h.scanning hi h.pending hk, goesOn_match h hk⟩
  | none =>
    have hexec := execPush_mismatch h.scanning hi h.pending hk
    by_cases hnc : s.nc.toNat = 4095
    · exact ⟨_, _, _, hexec, goesOn_ceiling h hi hk hnc⟩
    · exact ⟨_, _, _, hexec, goesOn_below h hi hk hnc⟩

end

/-- From `s` the job is finished in `t`, the stream going on with these bits. -/
structure Finishes (bits : List Bool) (s t : State) : Prop where
  queue : t.outQueue = s.outQueue ++ finishWords (pendingBits s ++ bits)
  taken_eq : t.taken = s.taken
  err_eq : t.err = s.err
  done : t.state = .done

/-- Bits already written are the first of those that finish the job. -/
theorem Finishes.of_wrote {bits rest : List Bool} {blocks : List (List Byte)} {s t u : State} (hw : Wrote bits blocks s t)
    (htaken : t.taken = s.taken) (herr : t.err = s.err) (h : Finishes rest t u) : Finishes (bits ++ rest) s u where
  queue := h.queue.trans (hw.finish rest)
  taken_eq := h.taken_eq.trans htaken
  err_eq := h.err_eq.trans herr
  done := h.done

/-- END writes the reference's last two codes (R155). -/
theorem closeJob_finishes {d : SeqMap} {p : List Byte} {s : State} (h : Scans d p s) :
    Finishes (restBits d p s []) s (closeJob s) where
  queue := by
    rw [closeJob_outQueue_stream h.acc_lt, restBits, codesFrom, h.codeOf_pending]
    simp [bitStream]
  taken_eq := closeJob_taken s
  err_eq := closeJob_err s
  done := closeJob_state s

/-- The rest of a job, index by index. -/
theorem execAll_finishes {d : SeqMap} {p : List Byte} {s : State} (h : Scans d p s) (xs : List Byte)
    (hxs : ∀ x ∈ xs, x.toNat < s.c.toNat) :
    ∃ t, execAll (xs.map .push ++ [.endStream]) s = .next t ∧ Finishes (restBits d p s xs) s t := by
  induction xs generalizing d p s with
  | nil => exact ⟨closeJob s, execAll_cons (execEnd_close h.scanning) [], closeJob_finishes h⟩
  | cons i xs ih =>
    obtain ⟨hi, hrest⟩ := List.forall_mem_cons.mp hxs
    obtain ⟨d', p', t, hexec, hscans, hc, htaken, herr, bits, blocks, hwrote, hbits⟩ := exec_push_goesOn h hi
    obtain ⟨u, hu, hfinish⟩ := ih hscans (by rwa [hc])
    refine ⟨u, (execAll_cons hexec _).trans hu, ?_⟩
    rw [hbits]
    exact hfinish.of_wrote hwrote htaken herr

/-! The first two commands of a job. -/

theorem jobOutput_eq (c : Nat) (x : Byte) (xs : List Byte) :
    jobOutput c x xs = { byte := BitVec.ofNat 8 (minCodeSize c), last := false } ::
      finishWords (bitStream (jobCodes c x xs)) := rfl

theorem pushFirst_wrote (i : Byte) {s : State} (hacc : s.acc.toNat < 2 ^ s.nb.toNat) :
    ∃ blocks, Wrote (codeBits s.c.toNat s.cs.toNat) blocks (outAppend (s.mcs.setWidth 8) false s) (pushFirst i s) := by
  obtain ⟨blocks, h⟩ := writeCode_wrote s.c.toNat (s := outAppend (s.mcs.setWidth 8) false s) hacc
  exact ⟨blocks, h.congr rfl rfl rfl rfl⟩

theorem openJob_packerEmpty (cn : Nat) (s : State) : PackerEmpty (openJob cn s) := ⟨rfl, rfl, rfl⟩

section

variable {c : Nat} (hc : 4 ≤ c ∧ c ≤ 256) (s : State) {x : Byte}

include hc

theorem openJob_mcs_byte : (openJob c s).mcs.setWidth 8 = BitVec.ofNat 8 (minCodeSize c) := by
  have hmcs := minCodeSize_le hc.2
  apply BitVec.eq_of_toNat_eq
  rw [openJob_mcs, BitVec.toNat_setWidth, BitVec.toNat_ofNat, BitVec.toNat_ofNat]
  omega

theorem openJob_cs_toNat : (openJob c s).cs.toNat = minCodeSize c + 1 := by
  have hmcs := minCodeSize_le hc.2
  rw [openJob_cs, BitVec.toNat_ofNat]
  omega

theorem openJob_nc_toNat : (openJob c s).nc.toNat = c + 2 := by
  rw [openJob_nc, ofNat_colors_toNat hc.2, BitVec.toNat_ofNat]
  omega

theorem restBits_first (x : Byte) (xs : List Byte) :
    restBits (literalMap c) [x] (pushFirst x (openJob c s)) xs =
      bitStream (codesFrom c (literalMap c) (c + 2) (minCodeSize c + 1) [x] xs) := by
  rw [restBits, pushFirst_c, openJob_c_toNat hc.2, pushFirst_nc, openJob_nc_toNat hc, pushFirst_cs,
    openJob_cs_toNat hc]

theorem scans_first (hx : x.toNat < c) : Scans (literalMap c) [x] (pushFirst x (openJob c s)) where
  scanning := rfl
  job := jobOk_congr (jobOk_openJob s hc) rfl rfl rfl rfl rfl
  map := by
    rw [pushFirst_dict, openJob_dict, ofNat_colors_toNat hc.2]
    exact sameMap_literals hc.2
  pending := by
    rw [pushFirst_dict, openJob_dict, ofNat_colors_toNat hc.2, dictLookup_literals_single hc.2, if_pos hx,
      BitVec.ofNat_toNat]
    rfl
  acc_lt := (pushFirst_packed x (acc_lt_of_packerEmpty (openJob_packerEmpty c s))).acc_lt

/-- The first two commands append the size byte and write Clear, as the reference does (R146). -/
theorem finishes_first {xs : List Byte} {t : State}
    (h : Finishes (restBits (literalMap c) [x] (pushFirst x (openJob c s)) xs) (pushFirst x (openJob c s)) t) :
    t.outQueue = s.outQueue ++ jobOutput c x xs ∧ t.taken = s.taken ∧ t.err = s.err := by
  have hempty := openJob_packerEmpty c s
  obtain ⟨blocks, hwrote⟩ := pushFirst_wrote x (acc_lt_of_packerEmpty hempty)
  obtain ⟨hqueue, htaken, herr, -⟩ := h.of_wrote hwrote rfl rfl
  have hnone : pendingBits (outAppend ((openJob c s).mcs.setWidth 8) false (openJob c s)) = [] :=
    pendingBits_of_packerEmpty hempty
  refine ⟨?_, htaken, herr⟩
  rw [hqueue, hnone, restBits_first hc, outAppend_outQueue, openJob_mcs_byte hc, openJob_c_toNat hc.2,
    openJob_cs_toNat hc, openJob_outQueue, List.append_assoc, jobOutput_eq]
  rfl

end

/-- Settles O50: START and the first PUSH set up what the reference starts with, and the rest of the job keeps to it. -/
theorem jobOutputIsReferenceFunction : Obligations.JobOutputIsReferenceFunction := by
  unfold Obligations.JobOutputIsReferenceFunction
  intro s cc x0 xs hs hc hxs
  have hcn : 4 ≤ coerceColors cc ∧ coerceColors cc ≤ 256 := ⟨four_le_coerceColors cc, hc⟩
  obtain ⟨hx0, hrest⟩ := List.forall_mem_cons.mp hxs
  have hcolors := openJob_c_toNat hc s
  have hstart := execStart_open hs hc
  have hfirst := execPush_first (openJob_state (coerceColors cc) s) (hx0.trans_eq hcolors.symm)
  obtain ⟨t, ht, hfinish⟩ := execAll_finishes (scans_first hcn s hx0) xs
    fun x hx => (hrest x hx).trans_eq hcolors.symm
  obtain ⟨hqueue, htaken, herr⟩ := finishes_first hcn s hfinish
  refine ⟨t, ?_, ?_, hfinish.done, herr⟩
  · exact (execAll_cons hstart _).trans ((execAll_cons hfirst _).trans ht)
  · rw [State.out, State.out, hqueue, htaken, List.append_assoc]
    rfl

end Sys2Proof.Proofs

/-! The Sub-block Emitter: Drain and FinalFrame against the framing, and its length (44_subblock.md R180 to R183). -/

namespace Sys2Proof.Proofs

open Sys2Proof.Machine Sys2Proof.Reference Sys2Proof.Laws

/-! FinalFrame (R181). -/

theorem finalFrame_outQueue_frame {s : State} (h : s.buf.length ≤ 255) :
    (finalFrame s).outQueue = s.outQueue ++ plainWords (frame s.buf) ++ [{ byte := 0x00#8, last := true }] := by
  rw [finalFrame_outQueue, plainWords_frame_last h]

/-- Settles O34: a byte is left exactly where `BUF` is not empty, and then its sub-block is the count and the bytes. -/
theorem finalFrameEndsWithTerminator : Obligations.FinalFrameEndsWithTerminator := by
  unfold Obligations.FinalFrameEndsWithTerminator
  intro s _
  by_cases hempty : s.buf = []
  · rw [finalFrame, if_neg (by simp [hempty]), if_pos hempty]
    rfl
  · rw [finalFrame, if_pos (List.length_pos_iff.mpr hempty), if_neg hempty]
    rfl

/-! Drain in closed form (R180). -/

section

variable {blocks : List (List Byte)} {rest : List Byte} (hfull : ∀ b ∈ blocks, b.length = 255)

include hfull

theorem drop_blocks : (blocks.flatten ++ rest).drop (255 * blocks.length) = rest := by
  rw [← flatten_length hfull, List.drop_left]

variable (hrest : rest.length < 255)

include hrest

theorem blocks_count : (blocks.flatten ++ rest).length / 255 = blocks.length := by
  rw [List.length_append, flatten_length hfull]
  omega

theorem blocks_remainder : (blocks.flatten ++ rest).length % 255 = rest.length := by
  rw [List.length_append, flatten_length hfull]
  omega

/-- The blocks are the 255-byte pieces of the whole: both are what its framing has before the framing of the rest. -/
theorem flatMap_subBlock_eq_pieces :
    blocks.flatMap subBlock = (List.range blocks.length).flatMap fun j =>
      plainWords (255#8 :: ((blocks.flatten ++ rest).drop (255 * j)).take 255) := by
  have hframe := frame_blocks hfull rest
  rw [frame, blocks_count hfull hrest, blocks_remainder hfull hrest, drop_blocks hfull, ← frame_short hrest,
    plainWords_append] at hframe
  rw [← List.append_cancel_right hframe]
  exact List.map_flatMap

end

/-- Settles O33: what Drain sends and leaves, in blocks and a rest, written by the positions of the bytes. -/
theorem drainEmitsEveryFullSubBlock : Obligations.DrainEmitsEveryFullSubBlock := by
  unfold Obligations.DrainEmitsEveryFullSubBlock
  intro s
  obtain ⟨blocks, rest, hfull, hrest, hbuf, hdrain⟩ := drain_spec s
  rw [hdrain, hbuf, blocks_count hfull hrest, drop_blocks hfull, flatMap_subBlock_eq_pieces hfull hrest]

/-! The framing as a function of the packed data (R182). -/

theorem drain_buf_length (s : State) : (drain s).buf.length < 255 := by
  obtain ⟨blocks, rest, -, hrest, -, hdrain⟩ := drain_spec s
  rwa [hdrain]

/-- What Drain sends and the framing of what it leaves, with whatever joins it, is the framing of all the bytes. -/
theorem drain_frame_append (s : State) (more : List Byte) :
    (drain s).outQueue ++ plainWords (frame ((drain s).buf ++ more)) =
      s.outQueue ++ plainWords (frame (s.buf ++ more)) := by
  obtain ⟨blocks, rest, hfull, -, hbuf, hdrain⟩ := drain_spec s
  rw [hdrain, hbuf, List.append_assoc, List.append_assoc, frame_blocks hfull]

theorem finalFrame_drain_outQueue (s : State) :
    (finalFrame (drain s)).outQueue =
      s.outQueue ++ plainWords (frame s.buf) ++ [{ byte := 0x00#8, last := true }] := by
  have hsent := drain_frame_append s []
  rw [List.append_nil, List.append_nil] at hsent
  rw [finalFrame_outQueue_frame (drain_buf_length s).le, hsent]

/-- A length byte for every 255 bytes, and one for what is left. -/
theorem frame_length (data : List Byte) :
    (frame data).length = data.length + data.length / 255 + if 0 < data.length % 255 then 1 else 0 := by
  obtain ⟨blocks, rest, hfull, hrest, rfl, -⟩ := drainLoop_spec data.length data [] (Nat.div_le_self _ _)
  rw [← plainWords_length, frame_blocks hfull, List.length_append, flatMap_subBlock_length hfull, plainWords_length,
    frame_short hrest, blocks_count hfull hrest, blocks_remainder hfull hrest, List.length_append, flatten_length hfull]
  split
  · rw [List.length_cons]
    omega
  · rw [List.length_nil]
    omega

/-- Settles O35: an earlier Drain has sent the first part of the framing, and FinalFrame sends the rest of it. -/
theorem framingDoesNotDependOnDrain : Obligations.FramingDoesNotDependOnDrain := by
  unfold Obligations.FramingDoesNotDependOnDrain
  refine ⟨finalFrame_drain_outQueue, fun s more => ⟨?_, fun hshort => ?_⟩, fun d => ?_⟩
  · rw [finalFrame_drain_outQueue, drain_frame_append]
  · rw [finalFrame_outQueue_frame hshort, drain_frame_append]
  · rw [frame_length]

/-! A job's packed data (R183). -/

theorem bitStream_cons_length (v w : Nat) (codes : List SizedCode) :
    (bitStream ((v, w) :: codes)).length = w + (bitStream codes).length := by
  rw [bitStream, List.flatMap_cons, List.length_append, codeBits_length, bitStream]

/-- From every point of a job two codes are still to come, of the least width `k` of the job or more. -/
theorem codesFrom_bits_ge {c k : Nat} (hk : k ≤ minCodeSize c + 1) (xs : List Byte) (d : SeqMap) (nc : Nat) {cs : Nat}
    (hcs : k ≤ cs) (p : List Byte) : 2 * k ≤ (bitStream (codesFrom c d nc cs p xs)).length := by
  induction xs generalizing d nc cs p with
  | nil =>
    rw [codesFrom, bitStream_cons_length, bitStream_cons_length]
    omega
  | cons i xs ih =>
    rw [codesFrom]
    split
    next => exact ih d nc hcs (p ++ [i])
    next =>
      rw [bitStream_cons_length]
      split
      next =>
        have hrest := ih (literalMap c) (c + 2) hk [i]
        rw [bitStream_cons_length]
        omega
      next =>
        have hrest := ih ((p ++ [i], nc) :: d) (nc + 1) (cs := if nc = 2 ^ cs then cs + 1 else cs)
          (by split <;> omega) [i]
        omega

/-- Settles O36: Clear and two more codes of at least 3 bits each make 9 bits or more, and any data has a length byte. -/
theorem everySuccessfulJobHasTwoDataBytes : Obligations.EverySuccessfulJobHasTwoDataBytes := by
  unfold Obligations.EverySuccessfulJobHasTwoDataBytes
  intro c x0 xs hc data
  have hsize := minCodeSize_ge hc
  have hrest := codesFrom_bits_ge (c := c) (k := 3) (by omega) xs (literalMap c) (c + 2)
    (cs := minCodeSize c + 1) (by omega) [x0]
  have hdata : 2 ≤ data.length := by
    rw [packBits_length, jobCodes, bitStream_cons_length]
    omega
  refine ⟨hdata, ?_⟩
  rw [frame_length]
  split <;> omega

end Sys2Proof.Proofs

/-! Raising a fault, and the FAULT state (60_exceptions.md R200, R207, R209, R211). -/

namespace Sys2Proof.Proofs

open Sys2Proof.Machine Sys2Proof.Laws

/-- Settles O19: the first index gives `pushFirst`, a later one `pushNext`, and neither raises, the ceiling included. -/
theorem indexInRangeNeverFaults : Obligations.IndexInRangeNeverFaults := by
  unfold Obligations.IndexInRangeNeverFaults
  rintro s i (hs | hs) hi
  · exact ⟨_, execPush_first hs hi, pushFirst_state i s, pushFirst_err i s⟩
  · exact ⟨_, execPush_next hs hi, (pushNext_state i s).trans hs, pushNext_err i s⟩

/-- A command enters FAULT only by raising a fault: its effects leave ARMED, SCANNING or DONE. -/
theorem raised_of_went {i : Instr} {s t : State} (hw : Went s i t) (hs : s.state ≠ .fault) (ht : t.state = .fault) :
    ∃ e, e ≠ .noError ∧ t = raiseFault e s := by
  cases hw with
  | ignored _ hf => exact absurd hf hs
  | raised _ e _ he => exact ⟨e, he, rfl⟩
  | opened => simp at ht
  | first => simp at ht
  | next _ hscan => simp [hscan] at ht
  | closed => simp at ht

/-- A word enters FAULT only by raising a fault. -/
theorem raised_of_runWord {word : CmdWord} {s t : State} (hr : runWord word s = .next t) (hs : s.state ≠ .fault)
    (ht : t.state = .fault) : ∃ e, e ≠ .noError ∧ t = raiseFault e s := by
  obtain ⟨t', ht', hcase⟩ := runWord_cases word s
  rw [hr] at ht'
  cases ht'
  rcases hcase with ⟨i, _, hexec⟩ | ⟨_, _, ⟨hf, _⟩ | ⟨_, rfl⟩⟩
  · exact raised_of_went (went_of_exec hexec) hs ht
  · exact absurd hf hs
  · exact ⟨.illegal, by decide, rfl⟩

/-- Settles O22: the word raised a fault, and raising one writes `ERR` and `STATE` only. -/
theorem faultChangesOnlyErrAndState : Obligations.FaultChangesOnlyErrAndState := by
  unfold Obligations.FaultChangesOnlyErrAndState
  intro word s t hr hs ht
  obtain ⟨e, he, rfl⟩ := raised_of_runWord hr hs ht
  exact ⟨he, rfl⟩

/-- In FAULT every command is ignored (R211). -/
theorem exec_of_fault {s : State} (h : s.state = .fault) (i : Instr) : exec i s = .next s := by
  cases i with
  | start cc => exact execStart_fault h
  | push b => exact execPush_fault h
  | endStream => exact execEnd_fault h

/-- In FAULT every word is ignored, an illegal one too (R211). -/
theorem runWord_of_fault {s : State} (h : s.state = .fault) (word : CmdWord) : runWord word s = .next s := by
  cases hd : decode word with
  | instr i => rw [runWord_instr hd, exec_of_fault h]
  | illegal why => rw [runWord_of_no_instr (by simp [hd]), if_pos h]

/-- In FAULT no word appends anything (R211, R236). -/
theorem mayProduce_of_fault {s : State} (h : s.state = .fault) (word : CmdWord) : mayProduce word s = 0 := by
  rw [mayProduce, h]
  rcases decode word with (_ | _ | _) | _ <;> rfl

/-- Settles O24: the word asks for no room, so it is accepted, and then ignored. -/
theorem faultIgnoresEveryWord : Obligations.FaultIgnoresEveryWord := by
  unfold Obligations.FaultIgnoresEveryWord
  intro s word rest hs hq hcmds
  have hroom : s.outQueue.length + mayProduce word s ≤ Config.outQueueDepth := by rwa [mayProduce_of_fault hs]
  rw [step_accept hcmds hroom]
  exact runWord_of_fault (s := { s with cmds := rest }) hs word

/-- The host's actions keep `STATE` and `ERR`, the reset input apart (R209, R230). -/
theorem hostNext_keeps_status (s : State) :
    ((hostNext s).state = s.state ∧ (hostNext s).err = s.err) ∨
      ∃ rest, s.host = .reset :: rest ∧ hostNext s = { State.reset with host := rest } := by
  rcases hostNext_cases s with ⟨_, h⟩ | ⟨_, _, _, h⟩ | ⟨_, _, _, h⟩ | ⟨_, _, _, _, _, h⟩ | ⟨_, _, h⟩ | hreset
  · simp [h]
  · simp [h]
  · simp [h]
  · simp [h]
  · simp [h]
  · exact .inr hreset

/-- Settles O25: a waiting word is ignored, and of the host's actions only the reset input writes `STATE` or `ERR`. -/
theorem onlyResetLeavesFault : Obligations.OnlyResetLeavesFault := by
  unfold Obligations.OnlyResetLeavesFault
  intro s t hs hstep
  rcases step_cases s with ⟨word, rest, _, _, _, hrun, _⟩ | ⟨_, hhost⟩
  · rw [hstep, runWord_of_fault (s := { s with cmds := rest }) hs] at hrun
    cases hrun
    exact .inl ⟨hs, rfl⟩
  · rw [hstep] at hhost
    cases hhost
    rcases hostNext_keeps_status s with ⟨hstate, herr⟩ | hreset
    · exact .inl ⟨hstate.trans hs, herr⟩
    · exact .inr hreset

end Sys2Proof.Proofs

/-! Reset, the stall of the command port and what each command appends (70_reset_and_hazards.md R230, R231, R234, R236). -/

namespace Sys2Proof.Proofs

open Sys2Proof.Machine Sys2Proof.Safety Sys2Proof.Laws

/-! What a command appends (R236). -/

theorem went_appends {i : Instr} {s t : State} (hw : Went s i t) : s.outQueue <+: t.outQueue := by
  cases hw with
  | ignored => exact List.prefix_rfl
  | raised => exact List.prefix_rfl
  | opened => exact List.prefix_rfl
  | first b => exact pushFirst_appends b s
  | next b => exact pushNext_appends b s
  | closed => exact closeJob_appends s

/-- START discards what the packer holds (R102), and appends nothing. -/
theorem went_start_outQueue {cc : BitVec 16} {s t : State} (hw : Went s (.start cc) t) : t.outQueue = s.outQueue := by
  cases hw with
  | ignored => rfl
  | raised => rfl
  | opened => rfl

theorem went_end_queue_le {s t : State} (hw : Went s .endStream t) (hacc : s.acc.toNat < 2 ^ s.nb.toNat)
    (hbuf : s.buf.length ≤ 254) : t.outQueue.length ≤ s.outQueue.length + 513 := by
  cases hw with
  | ignored => exact Nat.le_add_right _ _
  | raised => exact Nat.le_add_right _ _
  | closed => exact closeJob_queue_length hacc hbuf

/-- A fault raised, or the FAULT state kept, leaves the queue as it is (R200, R211). -/
theorem went_fault_outQueue {i : Instr} {s t : State} (hw : Went s i t) (ht : t.state = .fault) :
    t.outQueue = s.outQueue := by
  cases hw with
  | ignored => rfl
  | raised => rfl
  | opened => rfl
  | first => cases ht
  | next b hs => cases hs.symm.trans ((pushNext_state b s).symm.trans ht)
  | closed => cases ht

/-- A later PUSH packs at most four bytes, enough for one full sub-block of 256 words or none. -/
theorem pushNext_queue_length (i : Byte) {s : State} (hacc : s.acc.toNat < 2 ^ s.nb.toNat) (hbuf : s.buf.length ≤ 254) :
    (pushNext i s).outQueue.length = s.outQueue.length ∨
      (pushNext i s).outQueue.length = s.outQueue.length + 256 := by
  obtain ⟨-, -, n, hq, hn⟩ := pushNext_packed i hacc hbuf
  omega

/-- Settles O40: the command's words are what it adds to the queue, counted for each way it can go. -/
theorem worstCaseOutputPerCommand : Obligations.WorstCaseOutputPerCommand := by
  unfold Obligations.WorstCaseOutputPerCommand
  intro i s h
  obtain ⟨t, ht, hw⟩ := exec_went i s
  obtain ⟨new, hnew⟩ := went_appends hw
  have hlen : t.outQueue.length = s.outQueue.length + new.length := by rw [← hnew, List.length_append]
  have hnone (hsame : t.outQueue = s.outQueue) : new = [] := List.append_right_eq_self.mp (hnew.trans hsame)
  refine ⟨t, new, ht, hnew.symm, ?start, ?first, ?next, ?close, fun hf => hnone (went_fault_outQueue hw hf)⟩
  case start =>
    rintro cc rfl
    exact hnone (went_start_outQueue hw)
  case first =>
    rintro b rfl hs hb
    cases ht.symm.trans (execPush_first hs hb)
    obtain ⟨-, -, hempty⟩ := h.armed hs
    have := pushFirst_queue_length b hempty
    omega
  case next =>
    rintro b rfl hs hb
    cases ht.symm.trans (execPush_next hs hb)
    have := pushNext_queue_length b h.acc_lt h.buf_le
    omega
  case close =>
    rintro rfl
    have := went_end_queue_le hw h.acc_lt h.buf_le
    omega

/-! The stall of the command port (R234), and the reset input (R230, R231). -/

theorem acceptNext_of_no_room {s : State} {word : CmdWord} {rest : List CmdWord} (hcmds : s.cmds = word :: rest)
    (hfull : Config.outQueueDepth < s.outQueue.length + mayProduce word s) : acceptNext s = none := by
  have hno : ¬canAccept word s = true := fun h => absurd ((canAccept_iff word s).mp h) (Nat.not_le_of_lt hfull)
  simp [acceptNext, hcmds, hno]

theorem hostNext_of_no_action {s : State} (h : s.host = []) : hostNext s = s := by
  rw [hostNext, h]

theorem hostNext_reset {s : State} {rest : List HostAction} (h : s.host = .reset :: rest) :
    hostNext s = { State.reset with host := rest } := by
  rw [hostNext, h]
  rfl

/-- A take is not the reset input, so it keeps `OUT`. -/
theorem hostNext_take_out {s : State} {more : List HostAction} (h : s.host = .take :: more) :
    (hostNext s).out = s.out := by
  rcases hostNext_out s with hout | ⟨rest, hreset, -⟩
  · exact hout
  · rw [h] at hreset
    cases hreset

theorem takeWord_cmds (s : State) : (takeWord s).cmds = s.cmds := by
  unfold takeWord
  split
  · rfl
  · rfl

theorem hostNext_take_cmds {s : State} {more : List HostAction} (h : s.host = .take :: more) :
    (hostNext s).cmds = s.cmds := by
  rw [hostNext, h]
  exact takeWord_cmds { s with host := more }

/-- Settles O41: the word asks for more room than there is, so it is not accepted and the step is the host's. -/
theorem stallKeepsEverything : Obligations.StallKeepsEverything := by
  unfold Obligations.StallKeepsEverything
  intro s word rest hcmds hfull
  have hstep := step_host (acceptNext_of_no_room hcmds hfull)
  exact ⟨hstep, fun hidle => by rw [hstep, hostNext_of_no_action hidle],
    fun more htake => ⟨hostNext_take_cmds htake, hostNext_take_out htake⟩⟩

/-- Settles O7: the step is the host's, and its action is the reset input. -/
theorem resetInputDiscardsEverything : Obligations.ResetInputDiscardsEverything := by
  unfold Obligations.ResetInputDiscardsEverything
  intro s rest hnone hhost
  rw [step_host hnone, hostNext_reset hhost]

/-- Settles O42: no word may produce more than the worst case of R236, and every queue holds that. -/
theorem drainedQueueAcceptsNextWord : Obligations.DrainedQueueAcceptsNextWord := by
  unfold Obligations.DrainedQueueAcceptsNextWord
  intro s word rest hempty hcmds
  refine step_accept hcmds ?_
  calc s.outQueue.length + mayProduce word s = mayProduce word s := by rw [hempty, List.length_nil, Nat.zero_add]
    _ ≤ Config.worstCommand := mayProduce_le word s
    _ ≤ Config.outQueueDepth := worst_le_depth

end Sys2Proof.Proofs
